-- ==== Sys2Proof/Word.lean ====
section
/-!
DEFINITION. The byte (00_scope section 6).
-/
namespace Sys2Proof

/-- A stream byte, an output byte: `BYTE_BITS = 8` (00_scope R7, decision D9). -/
abbrev Byte := BitVec 8

end Sys2Proof
end

