-- ==== Sys2Proof/Config.lean ====
section
/-!
DEFINITION. What an instance of the hardware fixes (00_scope R7), what the host supplies with a command
(10_state R22, R23), the controller's modes, and the free values.
-/
namespace Sys2Proof

/-- A value of the parameter type `Mode`, by its code (00_scope section 5, 41 R171). Which codes an instance has is a
field of `Config`; the default ones are those of 30_encoding R106 (decision D12; log entry 5). -/
structure Mode where
  code : Nat
deriving DecidableEq, Repr

/-- Horizontal blank, code 0 of the default encoding (30_encoding R106). -/
def Mode.hblank : Mode := { code := 0 }
/-- Vertical blank, code 1. -/
def Mode.vblank : Mode := { code := 1 }
/-- The controller searches sprite attributes, code 2. -/
def Mode.attributeSearch : Mode := { code := 2 }
/-- The controller transfers pixels, code 3. -/
def Mode.pixelTransfer : Mode := { code := 3 }

/-! ## The parameter `CODEC` as data (30_encoding R91; log entry 34) -/

/-- The five classes of a codec (30_encoding R91). -/
inductive TokenClass
  | endToken
  | rpb
  | rpp
  | lit
  | unknown
deriving DecidableEq, Repr

/-- A way to assemble a number from the indicator byte and the operand bytes; `minus` stops at 0. -/
inductive Assembly
  | const (n : Nat)
  | indicator
  | operand (k : Nat)
  | plus (a b : Assembly)
  | minus (a b : Assembly)
  | times (a b : Assembly)
  | div (a b : Assembly)
  | mod (a b : Assembly)
deriving DecidableEq, Repr

/-- A range of indicator bytes: those whose bits under `mask` are `pattern`, as a row of the opcode table. -/
structure ClassRow where
  mask : Byte
  pattern : Byte
  cls : TokenClass
deriving DecidableEq, Repr

/-- A codec (30_encoding R91): the recognised ranges, tested in order, every other byte being `UNKNOWN`; and for each
class that has them the number of operand bytes and the way count, value and distance are assembled. -/
structure Codec where
  rows : List ClassRow
  rpbOperands : Nat
  rpbCount : Assembly
  rpbValue : Assembly
  rppOperands : Nat
  rppCount : Assembly
  rppDistance : Assembly
  /-- Bytes after the indicator that are no data: none in a format whose run stands in the indicator (40 R128). -/
  litOperands : Nat
  litRun : Assembly
  /-- `MAX_COUNT` (00_scope section 5). -/
  maxCount : Nat
  /-- `MAX_OFFSET` (00_scope section 5). -/
  maxOffset : Nat
deriving DecidableEq, Repr

/-- One of the two tile tables; background and window share one (10_state R33, 90_conflicts C3). -/
inductive TileTable
  | bg
  | spr
deriving DecidableEq, Repr

/-- A destination kind: `BUF`, `BG` or `SPR` (10_state R33). -/
inductive DestKind
  | buf
  | tiles (t : TileTable)
deriving DecidableEq, Repr

/-- The parameters of one tile table (20_memory R70) and the modes in which it may be written (41 R171). -/
structure TableConfig where
  /-- `BASE(dk)`. -/
  base : Nat
  /-- `T(dk)`, the bytes of one tile. -/
  tileBytes : Nat
  /-- The number of tile slots. -/
  tiles : Nat
  /-- The modes `m` with `Writable(dk, m)`. -/
  writable : List Mode
deriving DecidableEq, Repr

/-- The parameters of an instance (00_scope R7 and section 5): fixed for the machine, changed by no step. -/
structure Config where
  /-- `CODEC`, with `MAX_COUNT` and `MAX_OFFSET`, which follow from it. -/
  codec : Codec
  /-- The values of `Mode`. -/
  modes : List Mode
  /-- `ADDR_BITS`. -/
  addrBits : Nat
  /-- `TILE_IDX_BITS`. -/
  tileIdxBits : Nat
  /-- `HIST_CAP`; `none` is an unbounded history. -/
  histCap : Option Nat
  /-- The background/window tile table. -/
  bg : TableConfig
  /-- The sprite tile table. -/
  spr : TableConfig
deriving DecidableEq, Repr

/-- The parameters of a tile table. -/
def Config.table (c : Config) : TileTable → TableConfig
  | .bg => c.bg
  | .spr => c.spr

/-- `MAX_COUNT` of the layout `CODEC_GBC` (00_scope section 5, 30_encoding R92). -/
def maxCount : Nat := 64

/-- `MAX_OFFSET` of the layout `CODEC_GBC` (00_scope section 5, 40 R131). -/
def maxOffset : Nat := 32768

/-- What the host supplies with a selector (10_state R22, R23; 41 R165). `src` is the stream, `SRC_LEN` its
length; `srcBase` is where the host placed the stream in the destination space, `none` if outside it (20_memory
R70, R76; log entry 13). -/
structure CmdArgs where
  src : List Byte
  srcBase : Option Nat
  dst0 : Nat
  tile0 : Nat
deriving DecidableEq, Repr

/-- A request at the command port: the 2-bit selector of 30_encoding R103 and its arguments. -/
structure Request where
  cmd : BitVec 2
  args : CmdArgs
deriving DecidableEq, Repr

/-- FREE VALUE (log entry 10). Which value of `Mode` the controller answers the `k`-th query with, where no script
gives one: 93 U15, any of them. -/
opaque Config.freeAnswer : Nat → Nat

/-- FREE VALUE (log entry 16). Which value of `Mode` the controller is in at a write that asked for none (70 R240). -/
opaque Config.freeUngatedMode : Nat → Nat

/-- FREE VALUE (log entries 7, 16). A byte the spec leaves open (10_state R42, 93 U9). -/
opaque Config.freeByte : Nat → Byte

/-- FREE VALUE (log entry 7). A natural number the spec leaves open (10_state R42). -/
opaque Config.freeNat : Nat → Nat

end Sys2Proof
end

