-- ==== Sys2Proof/Syntax.lean ====
section
/-!
DEFINITION. The instructions: one constructor per row of spec/opcode_table.json. Five are tokens of the compressed
stream (30_encoding R92), four are commands of the host port (30_encoding R103).
-/
namespace Sys2Proof

/-- An instruction. A literal's data bytes are no operand: they stay in the stream and are read one at a time
(40 R128, decision D5; log entry 18). -/
inductive Instr
  /-- `END` (40 R125). -/
  | endToken
  /-- `RPB value, count` (40 R126). -/
  | rpb (value : Byte) (count : Nat)
  /-- `UNK`: the unrecognised indicator byte `c` (40 R129). -/
  | unk (c : Byte)
  /-- `RPP offset, count`, with the distance the codec assembled, usable or not (40 R127, 30_encoding R91 (c)). -/
  | rpp (offset count : Nat)
  /-- `LIT` with its run (40 R128). -/
  | lit (run : Nat)
  /-- `DBUF` (41 R161). -/
  | dbuf (args : CmdArgs)
  /-- `DBKG` (41 R162). -/
  | dbkg (args : CmdArgs)
  /-- `DWIN` (41 R163). -/
  | dwin (args : CmdArgs)
  /-- `DSPR` (41 R164). -/
  | dspr (args : CmdArgs)
deriving DecidableEq, Repr

/-- Does the instruction stand in the stream (a token), not at the command port? -/
def Instr.isToken : Instr → Bool
  | .endToken | .rpb _ _ | .unk _ | .rpp _ _ | .lit _ => true
  | .dbuf _ | .dbkg _ | .dwin _ | .dspr _ => false

end Sys2Proof
end

