-- ==== Sys2Proof/WellFormed.lean ====
section
/-!
DEFINITION. Which instructions the layout `CODEC_GBC` and the command port can express.
-/
namespace Sys2Proof

/-- `DST0` fits its register (30_encoding R104). -/
def CmdArgs.dstFits (c : Config) (a : CmdArgs) : Bool := a.dst0 < 2 ^ c.addrBits

/-- `TILE0` fits its register (30_encoding R104). -/
def CmdArgs.tileFits (c : Config) (a : CmdArgs) : Bool := a.tile0 < 2 ^ c.tileIdxBits

/-- An operand lies in the range its encoding has: for a token that of `CODEC_GBC` (30_encoding R92, R94, R95, R97),
for a command that of its register (R104). A command is checked for the argument it reads only (10_state R23). -/
def Instr.wellFormed (c : Config) : Instr → Bool
  | .endToken => true
  | .rpb _ count => 2 ≤ count && count ≤ maxCount
  | .unk b => b.extractLsb' 6 2 == 1#2
  | .rpp offset count => 1 ≤ offset && offset ≤ 0x10000 && 1 ≤ count && count ≤ maxCount
  | .lit run => 1 ≤ run && run ≤ maxCount
  | .dbuf a => a.dstFits c
  | .dbkg a => a.tileFits c
  | .dwin a => a.tileFits c
  | .dspr a => a.tileFits c

end Sys2Proof
end

