-- ==== Sys2Proof/Decode.lean ====
section
/-!
DEFINITION. The codec, the decoder of the token stream and of the command port, the encoder, and the token syntax
(30_encoding).
-/
namespace Sys2Proof

/-! ## Codecs (30_encoding R91) -/

/-- The number an assembly gives for an indicator byte and its operand bytes. -/
def Assembly.eval (c : Byte) (ops : List Byte) : Assembly → Nat
  | .const n => n
  | .indicator => c.toNat
  | .operand k => (ops.getD k 0#8).toNat
  | .plus a b => a.eval c ops + b.eval c ops
  | .minus a b => a.eval c ops - b.eval c ops
  | .times a b => a.eval c ops * b.eval c ops
  | .div a b => a.eval c ops / b.eval c ops
  | .mod a b => a.eval c ops % b.eval c ops

/-- The indicator byte lies in the row's range. -/
def ClassRow.covers (r : ClassRow) (c : Byte) : Bool := c &&& r.mask == r.pattern

/-- The class of an indicator byte: of the first range it lies in, `UNKNOWN` outside all of them (30_encoding R91
(d)). -/
def Codec.classOf (k : Codec) (c : Byte) : TokenClass :=
  match k.rows.find? fun r => r.covers c with
  | some r => r.cls
  | none => .unknown

/-- The operand bytes a class has after its indicator. -/
def Codec.operandCount (k : Codec) : TokenClass → Nat
  | .endToken => 0
  | .rpb => k.rpbOperands
  | .rpp => k.rppOperands
  | .lit => k.litOperands
  | .unknown => 0

/-- The count or run of a token, `none` for the two classes that carry none. -/
def Codec.count? (k : Codec) (c : Byte) (ops : List Byte) : Option Nat :=
  match k.classOf c with
  | .endToken => none
  | .rpb => some (k.rpbCount.eval c ops)
  | .rpp => some (k.rppCount.eval c ops)
  | .lit => some (k.litRun.eval c ops)
  | .unknown => none

/-- The contract of a codec as far as a model can state it (30_encoding R91 (b), decision D26; 00_scope section 5):
every count and run is from 1 to `MAX_COUNT`, and some distance is usable. -/
structure Codec.Contract (k : Codec) : Prop where
  counts : ∀ c ops n, ops.length = k.operandCount (k.classOf c) → k.count? c ops = some n → 1 ≤ n ∧ n ≤ k.maxCount
  offsets : 1 ≤ k.maxOffset

/-- The token of an indicator byte and its operand bytes; an RPB value has 8 bits (40 R126). -/
def Codec.assemble (k : Codec) (c : Byte) (ops : List Byte) : Instr :=
  match k.classOf c with
  | .endToken => .endToken
  | .rpb => .rpb (BitVec.ofNat 8 (k.rpbValue.eval c ops)) (k.rpbCount.eval c ops)
  | .rpp => .rpp (k.rppDistance.eval c ops) (k.rppCount.eval c ops)
  | .lit => .lit (k.litRun.eval c ops)
  | .unknown => .unk c

/-! ## Decoding the stream -/

/-- Which byte of a token the stream has no more room for (60 R203). -/
inductive Missing
  | indicator
  | operand (cls : TokenClass)
deriving DecidableEq, Repr

/-- What the decoder makes of the bytes at the cursor: an instruction and the bytes after its fetched part, or a
rejection by name. -/
inductive Decoded
  | token (i : Instr) (rest : List Byte)
  | truncated (m : Missing)
deriving DecidableEq, Repr

/-- One token at the head of a byte sequence, under any codec (30_encoding R90, R91; 40 R121, R125 to R129). -/
def decodeWith (k : Codec) : List Byte → Decoded
  | [] => .truncated .indicator
  | c :: rest =>
    if rest.length < k.operandCount (k.classOf c) then .truncated (.operand (k.classOf c))
    else
      .token (k.assemble c (rest.take (k.operandCount (k.classOf c)))) (rest.drop (k.operandCount (k.classOf c)))

/-- The number of bytes the fetch of a token reads, so by how much it moves `sc` (10_state R24, 40 R121): for a
literal none of its data. A command is no token. -/
def Instr.fetchLength (k : Codec) : Instr → Nat
  | .endToken => 1
  | .rpb _ _ => 1 + k.rpbOperands
  | .unk _ => 1
  | .rpp _ _ => 1 + k.rppOperands
  | .lit _ => 1 + k.litOperands
  | .dbuf _ | .dbkg _ | .dwin _ | .dspr _ => 0

/-- The most stream bytes one pull can read: a whole fetch, and a data byte if it was a literal's. -/
def Codec.reach (k : Codec) : Nat := max (1 + k.rpbOperands) (max (1 + k.rppOperands) (2 + k.litOperands))

/-! ## The layout `CODEC_GBC` (30_encoding R92 to R96; decisions D1, D2, D4; log entries 1, 2) -/

/-- `kind = c[7:6]` (30_encoding R92). -/
def kindField (c : Byte) : BitVec 2 := c.extractLsb' 6 2

/-- `cf = c[5:0]` (30_encoding R92). -/
def countField (c : Byte) : BitVec 6 := c.extractLsb' 0 6

/-- The 16-bit field `d = {hi, lo}`, low byte first (30_encoding R94). -/
def distanceField (lo hi : Byte) : BitVec 16 := hi ++ lo

/-- `cf + 1` (30_encoding R92, R95). -/
def gbcCount : Assembly := .plus (.mod .indicator (.const 64)) (.const 1)

/-- `CODEC_GBC`. The ranges are those of 30_encoding R96, END first (decision D4); the distance is `0x10000 - d` with
the low byte of `d` first (R94). -/
def codecGbc : Codec where
  rows := [
    { mask := 0xFF#8, pattern := 0x00#8, cls := .endToken },
    { mask := 0xC0#8, pattern := 0x00#8, cls := .rpb },
    { mask := 0xC0#8, pattern := 0x80#8, cls := .rpp },
    { mask := 0xC0#8, pattern := 0xC0#8, cls := .lit }]
  rpbOperands := 1
  rpbCount := gbcCount
  rpbValue := .operand 0
  rppOperands := 2
  rppCount := gbcCount
  rppDistance := .minus (.const 0x10000) (.plus (.operand 0) (.times (.const 256) (.operand 1)))
  litOperands := 0
  litRun := gbcCount
  maxCount := maxCount
  maxOffset := maxOffset

/-- One token at the head of a byte sequence, in the layout `CODEC_GBC`. -/
def decode (bytes : List Byte) : Decoded := decodeWith codecGbc bytes

/-! ## The default instance (00_scope section 5) -/

/-- The default mode of a 2-bit code (30_encoding R106). -/
def Mode.ofField (m : BitVec 2) : Mode := { code := m.toNat }

/-- The default predicate: bit 1 of `m` is clear (30_encoding R106). -/
def Mode.defaultWritable (m : Mode) : Bool := !m.code.testBit 1

/-- The four default modes, by their 2-bit codes (30_encoding R106). -/
def Mode.defaults : List Mode := [0#2, 1#2, 2#2, 3#2].map Mode.ofField

/-- The defaults of 00_scope section 5 and 20_memory R70 (decisions D1, D9, D12, D13, D14; log entries 1, 2, 4, 5). -/
def Config.gameBoy : Config where
  codec := codecGbc
  modes := Mode.defaults
  addrBits := 16
  tileIdxBits := 8
  histCap := none
  bg := { base := 0x9000, tileBytes := 16, tiles := 128, writable := Mode.defaults.filter Mode.defaultWritable }
  spr := { base := 0x8000, tileBytes := 16, tiles := 256, writable := Mode.defaults.filter Mode.defaultWritable }

/-- The value of `Mode` of a free index: the values the instance has, over and over (00_scope section 5). -/
def Config.modeAt (c : Config) (k : Nat) : Mode := c.modes.getD (k % c.modes.length) Mode.hblank

/-! ## Decoding the command port -/

/-- The command a request asks for: all four selector values are used (30_encoding R103). -/
def decodeRequest (r : Request) : Instr :=
  if r.cmd = 0#2 then .dbuf r.args
  else if r.cmd = 1#2 then .dbkg r.args
  else if r.cmd = 2#2 then .dwin r.args
  else .dspr r.args

/-! ## Encoding -/

/-- The word of an instruction: bytes in the stream, or a request at the command port. -/
inductive Code
  | stream (bytes : List Byte)
  | port (r : Request)
deriving DecidableEq, Repr

/-- The indicator byte of a kind with the count field `count - 1` (30_encoding R92, R95). -/
def indicatorByte (kind : BitVec 2) (count : Nat) : Byte := kind ++ BitVec.ofNat 6 (count - 1)

/-- The two bytes of the field of a distance, `0x10000 - offset`, low byte first (30_encoding R94). -/
def distanceBytes (offset : Nat) : List Byte :=
  [(BitVec.ofNat 16 (0x10000 - offset)).extractLsb' 0 8, (BitVec.ofNat 16 (0x10000 - offset)).extractLsb' 8 8]

/-- The bytes of a token in `CODEC_GBC` (30_encoding R93), for a literal those of its fetched part; none for a
command. -/
def encodeToken : Instr → List Byte
  | .endToken => [0x00#8]
  | .rpb value count => [indicatorByte 0#2 count, value]
  | .unk c => [c]
  | .rpp offset count => indicatorByte 2#2 count :: distanceBytes offset
  | .lit run => [indicatorByte 3#2 run]
  | .dbuf _ | .dbkg _ | .dwin _ | .dspr _ => []

/-- The word of an instruction (30_encoding R93, R103). -/
def encode : Instr → Code
  | .dbuf a => .port { cmd := 0#2, args := a }
  | .dbkg a => .port { cmd := 1#2, args := a }
  | .dwin a => .port { cmd := 2#2, args := a }
  | .dspr a => .port { cmd := 3#2, args := a }
  | i => .stream (encodeToken i)

/-- The instruction a word stands for; a byte sequence must hold one token and nothing after it. -/
def decodeCode : Code → Option Instr
  | .port r => some (decodeRequest r)
  | .stream bytes =>
    match decode bytes with
    | .token i [] => some i
    | _ => none

/-- A whole literal, format `TL`: the indicator byte and all its data bytes (30_encoding R93). -/
def encodeLiteral (data : List Byte) : List Byte := encodeToken (.lit data.length) ++ data

/-! ## Token syntax (30_encoding R107) -/

/-- One line of the token syntax. -/
inductive AsmLine
  | lit (data : List Byte)
  | rpb (value : Byte) (count : Nat)
  | rpp (offset count : Nat)
  | endToken
  | rawByte (b : Byte)
deriving DecidableEq, Repr

/-- The bytes of a line; `none` where the layout has no single-token encoding (30_encoding R107, R108). -/
def assembleLine : AsmLine → Option (List Byte)
  | .lit data =>
    if 1 ≤ data.length ∧ data.length ≤ maxCount then some (encodeLiteral data) else none
  | .rpb value count =>
    if 2 ≤ count ∧ count ≤ maxCount then some (encodeToken (.rpb value count)) else none
  | .rpp offset count =>
    if 1 ≤ offset ∧ offset ≤ maxOffset ∧ 1 ≤ count ∧ count ≤ maxCount then
      some (encodeToken (.rpp offset count))
    else none
  | .endToken => some (encodeToken .endToken)
  | .rawByte b => some [b]

/-- The stream of a list of lines, laid end to end with no padding and no header (30_encoding R90). -/
def assemble : List AsmLine → Option (List Byte)
  | [] => some []
  | l :: ls =>
    match assembleLine l, assemble ls with
    | some bytes, some rest => some (bytes ++ rest)
    | _, _ => none

/-- The pseudo-instruction: `DWIN` stands for `DBKG` with the same arguments (30_encoding R108). -/
def Instr.expandAlias : Instr → Instr
  | .dwin a => .dbkg a
  | i => i

/-! ## The words of the opcode table -/

/-- The longest token: a literal of run 64 (30_encoding R99). -/
def maxTokenBytes : Nat := 65

/-- The bytes of a word of `nbits` bits, the first byte its bits 7..0, every bit above `nbits` zero, up to the
longest token. -/
def tableBytes (nbits w : Nat) : List Byte :=
  (List.range maxTokenBytes).map fun k => BitVec.ofNat 8 ((w % 2 ^ nbits) / 2 ^ (8 * k))

/-- The request of a selector with every argument zero. -/
def tableRequest (w : Nat) : Request :=
  { cmd := BitVec.ofNat 2 w, args := { src := [], srcBase := none, dst0 := 0, tile0 := 0 } }

/-- Does the table's word stand at the command port? The table numbers two spaces by the same bits: a selector has
2 bits, an indicator byte 8, and a word of 8 bits with the value 1, 2 or 3 is taken as a selector, since the token
such a byte opens has two bytes; a word 0 of 8 bits is END (log entry 22). -/
def isSelectorWord (nbits w : Nat) : Bool :=
  nbits < 8 || (nbits == 8 && 1 ≤ w && w ≤ 3)

/-- The instruction the decoder reads from a word of spec/opcode_table.json. -/
def decodeTableWord (nbits w : Nat) : Option Instr :=
  if isSelectorWord nbits w then some (decodeRequest (tableRequest w))
  else
    match decode (tableBytes nbits w) with
    | .token i _ => some i
    | .truncated _ => none

end Sys2Proof
end

