-- ==== Sys2Proof/Machine/State.lean ====
section
/-!
DEFINITION. The state of the machine as plain data (10_state), the reasons a step can stop, and the state after
reset.
-/
namespace Sys2Proof.Machine

/-- Why the model stops with a fault. -/
inductive Fault
  /-- No step is enabled: the block is in `IDLE` or `DONE` and the host makes no move (41 R167). Raised by the
  engine step. Safe: a stopped model proves nothing about what comes after (log entry 11). -/
  | noEnabledStep
  /-- A byte is asked of no token: the precondition of `ProduceByte` fails (40 R123). Raised by `produceByte`, in
  states no run reaches only. Safe (log entry 20). -/
  | noByteDue
  /-- A history read outside `0 <= k < n`, for which `HistRead` is not defined (20_memory R64). Raised by
  `produceByte`, in states no run reaches only. Safe (log entry 20). -/
  | historyOutOfRange
deriving DecidableEq, Repr

/-- Why the model gives a situation no meaning. -/
inductive Refusal
  /-- An instruction without a meaning in the model. Raised by an arm of the dispatch only. Safe. -/
  | notModelled (mnemonic : String)
  /-- A write outside the range of the destination: "refuse(address out of range)" (41 R175, 93 U3). Raised by the
  two write steps. Safe (log entry 14). -/
  | addressOutOfRange
  /-- A write that would land in the stream (20_memory R76, 93 U5). Raised by the two write steps. Safe (log
  entry 13). -/
  | sourceOverlap
  /-- A Start while a command runs (41 R160, 93 U4). Raised by the four commands. Safe (log entry 12). -/
  | startWhileBusy
  /-- An instance that keeps fewer than `MAX_OFFSET` bytes of history (20_memory R65, 93 U6). Raised by the four
  commands. Safe (log entry 15). -/
  | historyWindowTooSmall
  /-- An argument that does not fit the register it is latched in (30_encoding R104). Raised by the four commands.
  Safe (log entry 21). -/
  | argumentTooWide
deriving DecidableEq, Repr

/-- The outcome of a step of this machine. -/
abbrev Result (σ : Type) := Host.Outcome σ Fault Refusal

/-- The three errors of the decoder (60 R200). -/
inductive StreamError
  | malformed
  | unknown
  | truncated
deriving DecidableEq, Repr

/-- The kind of the running token, `NONE` before the first (10_state R25). -/
inductive TokenKind
  | none
  | lit
  | rpb
  | rpp
deriving DecidableEq, Repr

/-- The decoder's outcome so far (10_state R30). -/
inductive DStat
  | run
  | ended
  | error (e : StreamError)
deriving DecidableEq, Repr

/-- The phase of the writer (10_state R31). -/
inductive Phase
  | idle
  | pull
  | gate
  | done
deriving DecidableEq, Repr

/-- The values of `STATUS` (10_state R37, 30_encoding R105). -/
inductive Status
  | idle
  | busy
  | ok
  | malformed
  | unknown
  | truncated
deriving DecidableEq, Repr

/-- One entry of `TRACE`: address, byte, and the mode answered in the slot of the write, `none` for the buffer
(10_state R39). -/
structure WriteEvent where
  addr : Nat
  byte : Byte
  mode : Option Mode
deriving DecidableEq, Repr

/-- A move of the host (60 R220; log entry 9). -/
inductive HostMove
  /-- The host wants a command started, and waits until the block is not busy (41 R160). -/
  | start (r : Request)
  /-- The host lets one step pass. -/
  | wait
  /-- The host resets the block (70 R233). -/
  | reset
deriving DecidableEq, Repr

/-- The destination memory: the bytes written so far, by strictly rising address (10_state R38; log entry 8). -/
abbrev Memory := List Host.Cell

/-- The state. Names and order follow the table of 10_state section 1. -/
structure State where
  /-- The parameters of the instance (00_scope R7). -/
  cfg : Config
  /-- The host's coming moves (the model's own; log entry 9). -/
  host : List HostMove
  /-- The oracle's coming answers; after the last, every answer is free (10_state R40; log entry 10). -/
  oracle : List Mode
  /-- Oracle answers consumed so far (the model's own; log entry 10). -/
  slots : Nat
  /-- Index of the next free value (the model's own; log entries 7, 16). -/
  draws : Nat
  /-- `SRC`; `SRC_LEN` is its length (10_state R22). -/
  src : List Byte
  /-- Where the host placed the stream in the destination space (20_memory R70, R76). -/
  srcBase : Option Nat
  /-- The selector (10_state R23). -/
  cmd : BitVec 2
  /-- `DST0` (10_state R23). -/
  dst0 : Nat
  /-- `TILE0` (10_state R23). -/
  tile0 : Nat
  /-- The source cursor (10_state R24). -/
  sc : Nat
  /-- The kind of the running token (10_state R25). -/
  tk : TokenKind
  /-- The output bytes the running token still has to produce (10_state R26). -/
  rem : Nat
  /-- The byte a RepeatByte repeats (10_state R27). -/
  val : Byte
  /-- The distance of a RepeatPattern (10_state R28). -/
  off : Nat
  /-- The history (10_state R29). -/
  hist : List Byte
  /-- The decoder's outcome (10_state R30). -/
  dstat : DStat
  /-- The writer's phase (10_state R31). -/
  ws : Phase
  /-- The byte pulled and not yet written (10_state R32). Outside `GATE` it keeps the byte it held, the model's choice
  (log entry 32). -/
  pend : Byte
  /-- The destination kind (10_state R33). -/
  dk : DestKind
  /-- The tile slot of the next byte (10_state R34). -/
  ti : Nat
  /-- The offset of the next byte inside its slot (10_state R34). -/
  bo : Nat
  /-- The bytes written in this command (10_state R35). -/
  wn : Nat
  /-- `STATUS` (10_state R37). -/
  status : Status
  /-- `MEM` (10_state R38). -/
  mem : Memory
  /-- `TRACE` (10_state R39). -/
  trace : List WriteEvent
deriving DecidableEq, Repr

/-- `n`, the output count (10_state R29). -/
abbrev State.n (s : State) : Nat := s.hist.length

/-- `SRC_LEN` (10_state R22). -/
abbrev State.srcLen (s : State) : Nat := s.src.length

/-- `OUTCOUNT`, the host's view of `wn` (10_state R36). -/
abbrev State.outCount (s : State) : Nat := s.wn

/-- After reset (10_state R41): phase and status `IDLE`, the trace empty. Every other element has the value log
entry 6 names, since the spec gives none; nothing is listed in memory (log entry 8), no host move and no oracle
script is present (log entries 9, 10), and the instance has the spec's default parameters (log entry 4). -/
def State.reset : State where
  cfg := Config.gameBoy
  host := []
  oracle := []
  slots := 0
  draws := 0
  src := []
  srcBase := none
  cmd := 0#2
  dst0 := 0
  tile0 := 0
  sc := 0
  tk := .none
  rem := 0
  val := 0#8
  off := 1
  hist := []
  dstat := .run
  ws := .idle
  pend := 0#8
  dk := .buf
  ti := 0
  bo := 0
  wn := 0
  status := .idle
  mem := []
  trace := []

end Sys2Proof.Machine
end

