-- ==== Sys2Proof/Machine/Flags.lean ====
section
/-!
DEFINITION. The status outcome: codes, and the value each end of a command leaves (10_state R37, 30_encoding R105,
60 R200).
-/
namespace Sys2Proof.Machine

/-- The 3-bit code of a status (30_encoding R105). -/
def Status.code : Status → BitVec 3
  | .idle => 0
  | .busy => 1
  | .ok => 2
  | .malformed => 3
  | .unknown => 4
  | .truncated => 5

/-- The status of a command that ended with an error (60 R200, table). -/
def Status.ofError : StreamError → Status
  | .malformed => .malformed
  | .unknown => .unknown
  | .truncated => .truncated

/-- A command is running: phase `PULL` or `GATE` (10_state R31). -/
def State.busy (s : State) : Bool :=
  match s.ws with
  | .pull | .gate => true
  | .idle | .done => false

end Sys2Proof.Machine
end

