-- ==== Sys2Proof/Machine/Operands.lean ====
section
/-!
DEFINITION. The operand forms: the distance of a back-reference (40 R131), the write addresses and their ranges (41
R172 to R175), the cursor of a tile destination (41 R174), the writable modes (41 R171).
-/
namespace Sys2Proof.Machine

/-- The distance of a back-reference is usable: backward, no more than a token can carry, and not before the first
output byte (40 R127, R131). In `CODEC_GBC` a field `d < 0x8000` gives a distance above `MAX_OFFSET`, so the second
test is R127's on `d`; for other codecs it is deduced (log entry 34). -/
def State.distanceUsable (s : State) (offset : Nat) : Bool :=
  1 ≤ offset && offset ≤ s.cfg.codec.maxOffset && offset ≤ s.n

/-- `Writable(dk, m)` (41 R171). -/
def tableAllows (t : TableConfig) (m : Mode) : Bool := t.writable.contains m

/-- The buffer address of the next byte, `DST0 + wn`, in natural numbers (41 R172). -/
def State.bufferAddr (s : State) : Nat := s.dst0 + s.wn

/-- The tile address of the next byte, `BASE + ti * T + bo`, in natural numbers (41 R173). -/
def State.tileAddr (s : State) (t : TileTable) : Nat :=
  (s.cfg.table t).base + s.ti * (s.cfg.table t).tileBytes + s.bo

/-- An address has a cell in the destination space (10_state R38: `MEM` is indexed by `ADDR_BITS` bits). -/
def State.addressExists (s : State) (a : Nat) : Bool := a < 2 ^ s.cfg.addrBits

/-- The tile slot lies in its table (41 R175). -/
def State.slotInTable (s : State) (t : TileTable) : Bool := s.ti < (s.cfg.table t).tiles

/-- The address lies in the range of the stream (20_memory R76). -/
def State.inSource (s : State) (a : Nat) : Bool :=
  match s.srcBase with
  | none => false
  | some b => b ≤ a && a < b + s.src.length

/-- The address lies in the range of a tile table (20_memory R70). -/
def tableContains (t : TableConfig) (a : Nat) : Bool :=
  t.base ≤ a && a < t.base + t.tiles * t.tileBytes

/-- Why a write of the next byte of the buffer is refused, if it is (41 R175, 20_memory R76). -/
def State.bufferRefusal? (s : State) : Option Refusal :=
  if !s.addressExists s.bufferAddr then some .addressOutOfRange
  else if s.inSource s.bufferAddr then some .sourceOverlap
  else none

/-- Why a write of the next byte of a tile table is refused, if it is (41 R175, 20_memory R76). -/
def State.tileRefusal? (s : State) (t : TileTable) : Option Refusal :=
  if !(s.slotInTable t && s.addressExists (s.tileAddr t)) then some .addressOutOfRange
  else if s.inSource (s.tileAddr t) then some .sourceOverlap
  else none

/-- The cursor after a write to a tile destination (41 R174). -/
def State.advanceTile (s : State) (t : TileTable) : State :=
  { s with
    wn := s.wn + 1
    bo := if s.bo + 1 = (s.cfg.table t).tileBytes then 0 else s.bo + 1
    ti := if s.bo + 1 = (s.cfg.table t).tileBytes then s.ti + 1 else s.ti }

end Sys2Proof.Machine
end

