-- ==== Sys2Proof/Machine/Ops.lean ====
section
/-!
DEFINITION. The named operations: destination memory, source, history and mode port (20_memory), raising an error
(60 R204), one byte of the decoder (40 R120, R123), the end of a pull step (41 R168), starting a command (41 R165),
reset (70 R232).
-/
namespace Sys2Proof.Machine

/-! ## Destination memory -/

/-- Reading a byte of memory, by the model's reader only: the block never reads it (20_memory R63). An address
nothing has written holds no value (log entry 8). -/
def Memory.read : Memory → Nat → Option Byte
  | [], _ => none
  | (b, v) :: m, a => if a = b then some v else Memory.read m a

/-- Writing a byte, in the canonical form. -/
def Memory.write : Memory → Nat → Byte → Memory
  | [], a, v => [(a, v)]
  | (b, w) :: m, a, v =>
    if a < b then (a, v) :: (b, w) :: m
    else if a = b then (a, v) :: m
    else (b, w) :: Memory.write m a v

/-- The canonical form: addresses strictly rising. No entry can equal what an unlisted address reads as, which is no
value. -/
abbrev Memory.wf (m : Memory) : Prop := m.Pairwise fun x y => x.1 < y.1

/-! ## Source, history, mode port -/

/-- `SrcRead(i)`, `none` for `EOS` (20_memory R61). -/
def State.srcRead (s : State) (i : Nat) : Option Byte := s.src[i]?

/-- `k` stream bytes have been read: `sc` moves past them (10_state R24, 20_memory R61). -/
def State.consume (s : State) (k : Nat) : State := { s with sc := s.sc + k }

/-- `HistRead(n - off)` under its check `1 <= off <= n`; `none` where the read is not defined (20_memory R64). -/
def State.histBack (s : State) (off : Nat) : Option Byte :=
  if 1 ≤ off ∧ off ≤ s.n then s.hist[s.n - off]? else none

/-- The answer the oracle gives to the next query (20_memory R66; log entry 10). -/
def State.nextAnswer (s : State) : Mode :=
  match s.oracle with
  | m :: _ => m
  | [] => s.cfg.modeAt (Config.freeAnswer s.slots)

/-- The state after a query: one answer is consumed (20_memory R66). -/
def State.afterQuery (s : State) : State :=
  { s with oracle := s.oracle.tail, slots := s.slots + 1 }

/-- `MemWrite(addr, 1, v)`: the byte is stored and the event recorded (20_memory R62). -/
def State.memWrite (s : State) (a : Nat) (v : Byte) (m : Option Mode) : State :=
  { s with mem := s.mem.write a v, trace := s.trace ++ [{ addr := a, byte := v, mode := m }] }

/-- The controller's mode at a write that asked for none: free (70 R240; log entry 16). -/
def State.ungatedMode (s : State) : Mode := s.cfg.modeAt (Config.freeUngatedMode s.draws)

/-- May a write at `a` that asked for no mode meet the controller scanning it (70 R240; log entry 16)? That the video
memory such a write can meet it in is exactly the two tile tables is the model's choice, since the spec gives video
memory no extent (log entry 33). -/
def State.disturbed (s : State) (a : Nat) : Bool :=
  (tableContains s.cfg.bg a && !tableAllows s.cfg.bg s.ungatedMode) ||
    (tableContains s.cfg.spr a && !tableAllows s.cfg.spr s.ungatedMode)

/-- A write that asks for no mode: as `memWrite`, but where the controller scans the address the byte stored there
is free (20_memory R62, 93 U9; log entry 16). -/
def State.memWriteUngated (s : State) (a : Nat) (v : Byte) : State :=
  { s.memWrite a v none with
    mem := s.mem.write a (if s.disturbed a then Config.freeByte s.draws else v)
    draws := s.draws + 1 }

/-! ## One byte of the decoder -/

/-- An answer of `decodeNext` (40 R120). -/
inductive Answer
  | byte (b : Byte)
  | endOfStream
  | error (e : StreamError)
  /-- The rules define no answer; the model stops (log entry 20). -/
  | undefined (f : Fault)
deriving DecidableEq, Repr

/-- `raise <Error>`: the error is recorded in `dstat` and everything else stays as it is (60 R204). -/
def State.raise (s : State) (e : StreamError) : State := { s with dstat := .error e }

/-- `ProduceByte()` (40 R123). -/
def produceByte (s : State) : Answer × State :=
  if s.rem = 0 then (.undefined .noByteDue, s)
  else
    match s.tk with
    | .none => (.undefined .noByteDue, s)
    | .rpb => (.byte s.val, s)
    | .rpp =>
      match s.histBack s.off with
      | some b => (.byte b, s)
      | none => (.undefined .historyOutOfRange, s)
    | .lit =>
      match s.srcRead s.sc with
      | some b => (.byte b, s.consume 1)
      | none => (.error .truncated, s.raise .truncated)

/-- A produced byte is counted off `rem` and appended to the history (40 R120). -/
def State.appendByte (s : State) (b : Byte) : State :=
  { s with rem := s.rem - 1, hist := s.hist ++ [b] }

/-- `decodeNext()` once no fetch is due, or after the fetch: the sticky outcomes, then one byte (40 R120). -/
def emit (s : State) : Answer × State :=
  match s.dstat with
  | .ended => (.endOfStream, s)
  | .error e => (.error e, s)
  | .run =>
    match produceByte s with
    | (.byte b, t) => (.byte b, t.appendByte b)
    | (.endOfStream, t) => (.endOfStream, t)
    | (.error e, t) => (.error e, t)
    | (.undefined f, t) => (.undefined f, t)

/-! ## The end of a pull step: taking an error -/

/-- The command ends with a status: this is also error entry, for which nothing is saved and no handler runs (41
R168, 60 R208). -/
def State.endCommand (s : State) (st : Status) : State := { s with status := st, ws := .done }

/-- What the writer does with an answer of `decodeNext` (41 R168). -/
def answerPull : Answer × State → Result State
  | (.byte b, s) => .next { s with pend := b, ws := .gate }
  | (.endOfStream, s) => .next (s.endCommand .ok)
  | (.error e, s) => .next (s.endCommand (Status.ofError e))
  | (.undefined f, _) => .fault f

/-- The pull step that fetches a token: `decodeNext` with `fetch` the part of `FetchToken` for that token (40 R120,
R121; 41 R168). An outcome already reached is sticky and fetches nothing. -/
def runToken (fetch : State → State) (s : State) : Result State :=
  match s.dstat with
  | .run => answerPull (emit (fetch s))
  | .ended => answerPull (emit s)
  | .error _ => answerPull (emit s)

/-! ## Starting a command, reset -/

/-- The instance keeps enough history (20_memory R65). -/
def historyFits (c : Config) : Bool :=
  match c.histCap with
  | none => true
  | some k => c.codec.maxOffset ≤ k

/-- The working state a Start sets (41 R165, 10_state R42). What R42 leaves unspecified is free: `val`, `off` (in
its range) and `pend`, and for the buffer `ti` and `bo` (log entry 7). -/
def State.startWith (s : State) (cmd : BitVec 2) (dk : DestKind) (a : CmdArgs) : State :=
  { s with
    src := a.src, srcBase := a.srcBase, cmd := cmd, dst0 := a.dst0, tile0 := a.tile0
    sc := 0, tk := .none, rem := 0, hist := [], dstat := .run
    val := Config.freeByte s.draws
    off := Config.freeNat s.draws % s.cfg.codec.maxOffset + 1
    ws := .pull
    pend := Config.freeByte (s.draws + 1)
    dk := dk
    ti := match dk with
      | .buf => Config.freeNat (s.draws + 1)
      | .tiles _ => a.tile0
    bo := match dk with
      | .buf => Config.freeNat (s.draws + 2)
      | .tiles _ => 0
    wn := 0
    status := .busy
    trace := []
    draws := s.draws + 3 }

/-- The argument a destination kind reads fits its register (30_encoding R104). -/
def argumentFits (c : Config) (a : CmdArgs) : DestKind → Bool
  | .buf => a.dstFits c
  | .tiles _ => a.tileFits c

/-- `Start` (41 R165) with its precondition (R160) and the situations without a meaning (93 U4, U6). -/
def start (cmd : BitVec 2) (dk : DestKind) (a : CmdArgs) (s : State) : Result State :=
  if s.busy then .refused .startWhileBusy
  else if !historyFits s.cfg then .refused .historyWindowTooSmall
  else if !argumentFits s.cfg a dk then .refused .argumentTooWide
  else .next (s.startWith cmd dk a)

/-- Reset of the block in a given surrounding: what `State.reset` holds for the block, while memory, the instance,
the host, the oracle and the indices of free values are not the block's to change (70 R232, R233). -/
def State.resetBlock (s : State) : State :=
  { State.reset with
    cfg := s.cfg, host := s.host, oracle := s.oracle, slots := s.slots, draws := s.draws, mem := s.mem }

end Sys2Proof.Machine
end

