-- ==== Sys2Proof/Machine/Commands.lean ====
section
/-!
DEFINITION. The meanings of the four commands (41 R161 to R164).
-/
namespace Sys2Proof.Machine

/-- `DBUF`: decompress to a plain buffer, ungated (41 R161). -/
def execDbuf (a : CmdArgs) (s : State) : Result State := start 0#2 .buf a s

/-- `DBKG`: decompress to background tiles (41 R162). -/
def execDbkg (a : CmdArgs) (s : State) : Result State := start 1#2 (.tiles .bg) a s

/-- `DWIN`: decompress to window tiles, the same table and policy as `DBKG` (41 R163). -/
def execDwin (a : CmdArgs) (s : State) : Result State := start 2#2 (.tiles .bg) a s

/-- `DSPR`: decompress to sprite tiles (41 R164). -/
def execDspr (a : CmdArgs) (s : State) : Result State := start 3#2 (.tiles .spr) a s

end Sys2Proof.Machine
end

