-- ==== Sys2Proof/Machine/Tokens.lean ====
section
/-!
DEFINITION. The meanings of the five tokens (40 R125 to R129). For each token: the fetch part, from the indicator
byte on, and the pull step that fetches it (41 R168; log entry 19). A step executes a token only where R121's
precondition holds: `dstat = RUN` and `rem = 0` (pullMove in Engine.lean).
-/
namespace Sys2Proof.Machine

/-- `END`, fetch part: indicator read, `dstat <- ENDED` (40 R121, R125). -/
def fetchEnd (s : State) : State := { s.consume 1 with dstat := .ended }

/-- `RPB`, fetch part: indicator and value read (40 R121, R126). -/
def fetchRpb (value : Byte) (count : Nat) (s : State) : State :=
  { s.consume (1 + s.cfg.codec.rpbOperands) with val := value, tk := .rpb, rem := count }

/-- `UNK`, fetch part: indicator read, `raise UnknownToken` (40 R121, R129). -/
def fetchUnk (s : State) : State := (s.consume 1).raise .unknown

/-- `RPP`, fetch part: indicator and distance bytes read; the distance must be backward and must not reach before the
first output byte (40 R121, R127). -/
def fetchRpp (offset count : Nat) (s : State) : State :=
  if s.distanceUsable offset then
    { s.consume (1 + s.cfg.codec.rppOperands) with off := offset, tk := .rpp, rem := count }
  else (s.consume (1 + s.cfg.codec.rppOperands)).raise .malformed

/-- `LIT`, fetch part: the indicator is read and no data byte (40 R121, R128). -/
def fetchLit (run : Nat) (s : State) : State :=
  { s.consume (1 + s.cfg.codec.litOperands) with tk := .lit, rem := run }

/-- The end token (40 R125). -/
def execEnd (s : State) : Result State := runToken fetchEnd s

/-- The repeat-byte token (40 R126). -/
def execRpb (value : Byte) (count : Nat) (s : State) : Result State := runToken (fetchRpb value count) s

/-- An unrecognised indicator byte; its six low bits are ignored (40 R129). -/
def execUnk (_c : Byte) (s : State) : Result State := runToken fetchUnk s

/-- The repeat-pattern token (40 R127). -/
def execRpp (offset count : Nat) (s : State) : Result State := runToken (fetchRpp offset count) s

/-- The literal token (40 R128). -/
def execLit (run : Nat) (s : State) : Result State := runToken (fetchLit run) s

end Sys2Proof.Machine
end

