-- ==== Sys2Proof/Machine/Dispatch.lean ====
section
/-!
DEFINITION. One arm per instruction.
-/
namespace Sys2Proof.Machine

def exec (i : Instr) (s : State) : Host.Outcome State Fault Refusal :=
  match i with
  | .endToken => Sys2Proof.Machine.execEnd s
  | .rpb value count => Sys2Proof.Machine.execRpb value count s
  | .unk c => Sys2Proof.Machine.execUnk c s
  | .rpp offset count => Sys2Proof.Machine.execRpp offset count s
  | .lit run => Sys2Proof.Machine.execLit run s
  | .dbuf args => Sys2Proof.Machine.execDbuf args s
  | .dbkg args => Sys2Proof.Machine.execDbkg args s
  | .dwin args => Sys2Proof.Machine.execDwin args s
  | .dspr args => Sys2Proof.Machine.execDspr args s

end Sys2Proof.Machine
end

