-- ==== Sys2Proof/Machine/Engine.lean ====
section
/-!
DEFINITION. The engine's steps that are no instruction (41 R167 to R170), the fetch of a token (40 R121), and which
step comes next (60 R220).
-/
namespace Sys2Proof.Machine

/-! ## The write steps -/

/-- The write step for the buffer (41 R169). `pend` is left as it is, the model's choice (R32; log entry 32). -/
def bufferWrite (s : State) : Result State :=
  match s.bufferRefusal? with
  | some r => .refused r
  | none =>
    .next { s.memWriteUngated s.bufferAddr s.pend with wn := s.wn + 1, ws := .pull }

/-- The write a writable answer `m` allows, then the cursor (41 R170, R174). `pend` is left as it is, the model's
choice (R32; log entry 32). -/
def tileWrite (t : TileTable) (m : Mode) (s : State) : Result State :=
  match s.tileRefusal? t with
  | some r => .refused r
  | none =>
    .next { (s.memWrite (s.tileAddr t) s.pend (some m)).advanceTile t with ws := .pull }

/-- The gated write step, one slot: a forbidden mode is one turn of the spin (41 R170). -/
def gatedWrite (t : TileTable) (s : State) : Result State :=
  if tableAllows (s.cfg.table t) s.nextAnswer then tileWrite t s.nextAnswer s.afterQuery
  else .next s.afterQuery

/-- The write step of the running command's destination (41 R167). -/
def writeStep (s : State) : Result State :=
  match s.dk with
  | .buf => bufferWrite s
  | .tiles t => gatedWrite t s

/-! ## The pull step without a fetch -/

/-- The pull step of a token that still has bytes to produce, or of an outcome already reached (40 R120, 41
R168). -/
def continueToken (s : State) : Result State := answerPull (emit s)

/-- The pull step whose fetch finds no more room in the stream: the bytes there are have been read, and
TruncatedStream ends the command (40 R121, R126, R127; 60 R203, R204). -/
def truncatedFetch (s : State) : Result State :=
  answerPull (emit ((s.consume (s.src.drop s.sc).length).raise .truncated))

/-! ## Which step comes next -/

/-- The next step of a state: an instruction to execute, or a step that is none. -/
inductive Move
  | run (i : Instr) (s : State)
  | other (r : Result State)

/-- A pull step fetches a token only when the running one is exhausted (40 R120). -/
def State.fetchDue (s : State) : Bool := s.dstat = .run && s.rem = 0

/-- The pull step (41 R168). -/
def pullMove (s : State) : Move :=
  if s.fetchDue then
    match decodeWith s.cfg.codec (s.src.drop s.sc) with
    | .token i _ => .run i s
    | .truncated _ => .other (truncatedFetch s)
  else .other (continueToken s)

/-- The engine's one enabled step in a busy phase; none in `IDLE` and `DONE` (41 R167). -/
def engineMove (s : State) : Move :=
  match s.ws with
  | .pull => pullMove s
  | .gate => .other (writeStep s)
  | .idle | .done => .other (.fault .noEnabledStep)

/-- The next step: a host that resets or starts a command goes first, a host that wants a command waits while the
block is busy, and otherwise the engine steps (41 R160, 60 R220, 70 R233; log entry 9). -/
def nextMove (s : State) : Move :=
  match s.host with
  | .reset :: h => .other (.next { s with host := h }.resetBlock)
  | .start r :: h => if s.busy then engineMove s else .run (decodeRequest r) { s with host := h }
  | .wait :: h => if s.busy then engineMove { s with host := h } else .other (.next { s with host := h })
  | [] => engineMove s

/-! ## Placing one instruction -/

/-- A running command that is about to fetch its next token from the stream `bytes`. -/
def State.atStream (s : State) (bytes : List Byte) : State :=
  { s with host := [], src := bytes, sc := 0, rem := 0, dstat := .run, ws := .pull, status := .busy }

/-- A block that is not busy, with a request at the command port. -/
def State.atPort (s : State) (r : Request) : State :=
  { s with host := [.start r], ws := .idle }

/-- The word placed where the next step takes its instruction: the stream at the cursor, or the command port. -/
def State.placeWord (s : State) (nbits w : Nat) : State :=
  if isSelectorWord nbits w then s.atPort (tableRequest w)
  else s.atStream (tableBytes nbits w)

end Sys2Proof.Machine
end

