-- ==== Sys2Proof/Machine/Step.lean ====
section
/-!
DEFINITION. One step of the machine, and the placing of one instruction for the next step.
-/
namespace Sys2Proof.Machine

/-- One step: the next move of the state, an instruction executed where it is one. -/
def step (s : State) : Host.Outcome State Fault Refusal :=
  match nextMove s with
  | .run i t => exec i t
  | .other r => r

/-- The state with a word of spec/opcode_table.json placed so that the next step runs it (log entry 23). -/
def State.withFetchWord (s : State) (nbits w : Nat) : State := s.placeWord nbits w

end Sys2Proof.Machine
end

