-- ==== Sys2Proof/Safety.lean ====
section
/-!
DEFINITION. The terms claims are stated in: the invariants of 10_state section 4, where an output byte goes, what a
Start leaves, the decoder's share of the state, the measure of a command (40 R136).
-/
namespace Sys2Proof.Machine

/-! ## Where an output byte goes -/

/-- The destination kind a selector stands for (30_encoding R103). -/
def destOfSelector (cmd : BitVec 2) : DestKind :=
  if cmd = 0#2 then .buf else if cmd = 3#2 then .tiles .spr else .tiles .bg

/-- The address of output byte `k` of the running command (41 R172, R173). -/
def State.outAddr (s : State) (k : Nat) : Nat :=
  match s.dk with
  | .buf => s.dst0 + k
  | .tiles t => (s.cfg.table t).base + s.tile0 * (s.cfg.table t).tileBytes + k

/-- The address lies in a tile table (20_memory R70). -/
def State.inTables (s : State) (a : Nat) : Bool := tableContains s.cfg.bg a || tableContains s.cfg.spr a

/-! ## Invariants (10_state section 4, and what the model adds: log entries 6, 8, 16, 24, 33) -/

/-- An instance of the kind the spec covers: its codec meets the contract (30_encoding R91), and a mode query has some
answer (20_memory R66). -/
structure Config.Lawful (c : Config) : Prop where
  codec : c.codec.Contract
  modes : c.modes ≠ []

/-- The decoder's elements stay in their ranges, and at most `MAX_COUNT` bytes come of each stream byte read
(10_state R24 to R28, 40 R136), on an instance the spec covers. -/
structure DecoderInv (s : State) : Prop where
  lawful : Config.Lawful s.cfg
  cursor : s.sc ≤ s.srcLen
  remaining : s.rem ≤ s.cfg.codec.maxCount
  offset : 1 ≤ s.off ∧ s.off ≤ s.cfg.codec.maxOffset
  backReference : s.tk = .rpp → 0 < s.rem → s.off ≤ s.n
  kind : 0 < s.rem → s.tk ≠ .none
  budget : s.n + s.rem ≤ s.cfg.codec.maxCount * s.sc

/-- Phase, status, outcome and counters agree (10_state section 4, R31, R32, R34, R35, R37). That the counters are 0 in
`IDLE` is the model's choice of reset values (log entries 6, 24). -/
structure WriterInv (s : State) : Prop where
  idle : s.ws = .idle → s.status = .idle ∧ s.wn = 0 ∧ s.n = 0
  busy : s.busy = true → s.status = .busy ∧ s.dstat = .run
  done : s.ws = .done → (s.dstat = .ended ∧ s.status = .ok) ∨
    ∃ e, s.dstat = .error e ∧ s.status = Status.ofError e
  written : s.ws ≠ .gate → s.wn = s.n
  pending : s.ws = .gate → s.n = s.wn + 1 ∧ s.hist.getLast? = some s.pend
  destination : s.ws ≠ .idle → s.dk = destOfSelector s.cmd
  tile : ∀ t, s.ws ≠ .idle → s.dk = .tiles t →
    s.ti * (s.cfg.table t).tileBytes + s.bo = s.tile0 * (s.cfg.table t).tileBytes + s.wn ∧
    (0 < (s.cfg.table t).tileBytes → s.bo < (s.cfg.table t).tileBytes)

/-- The trace is the written prefix of the output, at the addresses of the output, each write of a tile command in an
allowed slot and each write of a buffer command in none (20_memory R62, R72; 41 R176). -/
structure TraceInv (s : State) : Prop where
  bytes : s.trace.map WriteEvent.byte = s.hist.take s.wn
  addresses : s.trace.map WriteEvent.addr = (List.range s.wn).map s.outAddr
  ungated : s.dk = .buf → ∀ e ∈ s.trace, e.mode = none
  gated : ∀ t, s.dk = .tiles t →
    ∀ e ∈ s.trace, ∃ m, e.mode = some m ∧ tableAllows (s.cfg.table t) m = true

/-- Memory is in its canonical form, has cells of the address space only, and holds the written prefix of the output
wherever no ungated write could meet the controller (10_state R38, 41 R179): the model's form (log entry 8), and its
choice of where such a write can (log entries 16, 33). -/
structure MemoryInv (s : State) : Prop where
  canonical : Memory.wf s.mem
  inSpace : ∀ c ∈ s.mem, c.1 < 2 ^ s.cfg.addrBits
  holds : ∀ k, k < s.wn → (s.dk = .buf → s.inTables (s.outAddr k) = false) →
    Memory.read s.mem (s.outAddr k) = s.hist[k]?

/-- The invariants together. -/
structure Inv (s : State) : Prop where
  decoder : DecoderInv s
  writer : WriterInv s
  trace : TraceInv s
  memory : MemoryInv s

/-! ## Who moves -/

/-- The next step is the engine's in a busy phase: the host has no move to make, or waits with a command until the
block is free (41 R160, R167). -/
def State.engineTurn (s : State) : Prop :=
  s.busy = true ∧ (s.host = [] ∨ ∃ r h, s.host = .start r :: h)

/-- The next step is a reset, or a Start in a phase that allows one: the two moves of the host on the block (60
R220). -/
def State.hostTurn (s : State) : Prop :=
  (∃ h, s.host = .reset :: h) ∨ (s.busy = false ∧ ∃ r h, s.host = .start r :: h)

/-- The next step is a pull that fetches a token (40 R120, 41 R168). -/
def State.atFetch (s : State) : Prop :=
  s.engineTurn ∧ s.ws = .pull ∧ s.dstat = .run ∧ s.rem = 0

/-- The stream from the cursor on. -/
def State.stream (s : State) : List Byte := s.src.drop s.sc

/-- An outcome with its next state changed. -/
def mapNext (f : State → State) : Result State → Result State
  | .next t => .next (f t)
  | .fault r => .fault r
  | .refused r => .refused r

/-! ## What a Start leaves -/

/-- The state after a Start (41 R165, 10_state R42), but for `val`, `off`, `pend` and, for the buffer, `ti` and `bo`,
which R42 leaves unspecified. -/
structure StartedFrom (s : State) (cmd : BitVec 2) (dk : DestKind) (a : CmdArgs) (t : State) : Prop where
  arguments : t.src = a.src ∧ t.srcBase = a.srcBase ∧ t.cmd = cmd ∧ t.dst0 = a.dst0 ∧ t.tile0 = a.tile0
  decoder : t.sc = 0 ∧ t.tk = .none ∧ t.rem = 0 ∧ t.hist = [] ∧ t.dstat = .run
  writer : t.ws = .pull ∧ t.dk = dk ∧ t.wn = 0 ∧ t.status = .busy
  cursor : ∀ tb, dk = .tiles tb → t.ti = a.tile0 ∧ t.bo = 0
  trace : t.trace = []
  surrounding : t.mem = s.mem ∧ t.cfg = s.cfg ∧ t.host = s.host ∧ t.oracle = s.oracle ∧ t.slots = s.slots

/-! ## The decoder alone -/

/-- Two states agree in everything the decoder reads or writes (40 R120: it touches nothing else). -/
structure SameDecoder (s t : State) : Prop where
  codec : s.cfg.codec = t.cfg.codec
  src : s.src = t.src
  sc : s.sc = t.sc
  tk : s.tk = t.tk
  rem : s.rem = t.rem
  val : s.val = t.val
  off : s.off = t.off
  hist : s.hist = t.hist
  dstat : s.dstat = t.dstat

/-- Two states agree in everything that bears on what the decoder answers from now on: in `val` and `off` only while
a token reads them (10_state R27, R28: they have no meaning otherwise). -/
structure SameDecoding (s t : State) : Prop where
  codec : s.cfg.codec = t.cfg.codec
  src : s.src = t.src
  sc : s.sc = t.sc
  tk : s.tk = t.tk
  rem : s.rem = t.rem
  val : s.tk = .rpb → 0 < s.rem → s.val = t.val
  off : s.tk = .rpp → 0 < s.rem → s.off = t.off
  hist : s.hist = t.hist
  dstat : s.dstat = t.dstat

/-- The fetch part of a token, its indicator byte read too (40 R121, R125 to R129); a command has none. -/
def Instr.fetchPart : Instr → State → State
  | .endToken => fetchEnd
  | .rpb v n => fetchRpb v n
  | .unk _ => fetchUnk
  | .rpp o n => fetchRpp o n
  | .lit n => fetchLit n
  | .dbuf _ | .dbkg _ | .dwin _ | .dspr _ => id

/-- `FetchToken()` (40 R121): the token the bytes at the cursor decode to, or TruncatedStream. -/
def fetchToken (s : State) : State :=
  match decodeWith s.cfg.codec s.stream with
  | .token i _ => Instr.fetchPart i s
  | .truncated _ => (s.consume s.stream.length).raise .truncated

/-- `decodeNext()` whole (40 R120). -/
def decodeNext (s : State) : Answer × State := if s.fetchDue then emit (fetchToken s) else emit s

/-- `k` calls of `decodeNext` that need no fetch, the decoder's state after them. -/
def emitMany : Nat → State → State
  | 0, s => s
  | k + 1, s => emitMany k (emit s).2

/-! ## The measure of a command -/

/-- What a running command still has to do: it shrinks with every pull and every write, and stays as it is in a
forbidden slot (40 R136, 41 R177). -/
def State.work (s : State) : Nat :=
  2 * (s.cfg.codec.maxCount * (s.srcLen - s.sc) + s.rem) +
    match s.ws with
    | .pull => 1
    | .gate => 2
    | .idle | .done => 0

/-- A state after `k` steps of the machine. -/
def Reaches (s : State) (k : Nat) (t : State) : Prop := Sys2Proof.core.run k s = .next t

end Sys2Proof.Machine
end

