-- ==== Sys2Proof/Certificates/Slice0/Obligations.lean ====
section
/-!
DEFINITION. The statements for the provers.
-/
open Sys2Proof Sys2Proof.Machine

/-! ## Encoding -/

/-- 30_encoding R93 with R92, R95, R96 (the layout is the spec's decision D1, D2, D4; log entries 1, 2): every
well-formed token, with anything after it, decodes to itself and leaves what comes after. -/
def Obligations.DecodeEncodeToken : Prop :=
  ∀ (c : Config) (i : Instr) (rest : List Byte), i.isToken = true → i.wellFormed c = true →
    decode (encodeToken i ++ rest) = .token i rest

/-- 30_encoding R93, R103: every well-formed instruction, token or command, is read back from its own word. -/
def Obligations.DecodeCodeEncode : Prop :=
  ∀ (c : Config) (i : Instr), i.wellFormed c = true → decodeCode (encode i) = some i

/-- 30_encoding R96 with R92, R95, R97 (decision D1; log entry 1): what the decoder accepts is the encoding of a
well-formed token, and no bit of it is dropped. -/
def Obligations.EncodeDecodeToken : Prop :=
  ∀ (c : Config) (bytes rest : List Byte) (i : Instr), decode bytes = .token i rest →
    bytes = encodeToken i ++ rest ∧ i.isToken = true ∧ i.wellFormed c = true

/-- 30_encoding R103 (codes are decision D15): every request at the command port is read, and encodes back to
itself with all its arguments. -/
def Obligations.RequestRoundTrip : Prop :=
  ∀ r : Request, encode (decodeRequest r) = .port r ∧ (decodeRequest r).isToken = false

/-- 10_state R24, 30_encoding R91, R99 (the numbers are those of `CODEC_GBC`, decision D1; log entry 1): a token's fetch
reads its indicator byte and the operand bytes of its class; under `CODEC_GBC` 1 byte for END, LIT and an unrecognised
byte, 2 for RPB and 3 for RPP. -/
def Obligations.FetchLengthRead : Prop :=
  (∀ (k : Codec) (bytes rest : List Byte) (i : Instr), decodeWith k bytes = .token i rest →
    bytes.length = i.fetchLength k + rest.length) ∧
  (∀ i : Instr, i.isToken = true → i.fetchLength codecGbc =
    match i with
    | .rpb _ _ => 2
    | .rpp _ _ => 3
    | _ => 1)

/-- 30_encoding R92, R95, R96 (decision D1; log entry 1): the class of every one of the 256 indicator bytes of
`CODEC_GBC`, the count or run it carries, and that the value of an RPB is its operand byte. -/
def Obligations.IndicatorClasses : Prop :=
  (∀ c : Byte, codecGbc.classOf c =
    if c.toNat = 0 then .endToken
    else if c.toNat ≤ 0x3F then .rpb
    else if c.toNat ≤ 0x7F then .unknown
    else if c.toNat ≤ 0xBF then .rpp
    else .lit) ∧
  (∀ (c : Byte) (ops : List Byte), codecGbc.count? c ops =
    if c.toNat = 0 then none
    else if c.toNat ≤ 0x3F then some (c.toNat + 1)
    else if c.toNat ≤ 0x7F then none
    else if c.toNat ≤ 0xBF then some (c.toNat - 0x80 + 1)
    else some (c.toNat - 0xC0 + 1)) ∧
  (∀ c v : Byte, codecGbc.rpbValue.eval c [v] = v.toNat)

/-- 30_encoding R94, 40 R127, R131 (decision D2; log entry 2): the distance `CODEC_GBC` assembles from its two operand
bytes, low byte first, is minus the displacement they hold; a field below 0x8000 gives one above `MAX_OFFSET`, which is
never usable, and any other gives one from 1 to 32768. -/
def Obligations.DistanceOfField : Prop :=
  ∀ c lo hi : Byte,
    ((hi ++ lo : BitVec 16).toNat < 0x8000 → maxOffset < codecGbc.rppDistance.eval c [lo, hi]) ∧
    (0x8000 ≤ (hi ++ lo : BitVec 16).toNat →
      1 ≤ codecGbc.rppDistance.eval c [lo, hi] ∧ codecGbc.rppDistance.eval c [lo, hi] ≤ 32768 ∧
      (codecGbc.rppDistance.eval c [lo, hi] : Int) = -(hi ++ lo : BitVec 16).toInt) ∧
    ∀ s : State, s.cfg.codec = codecGbc → (hi ++ lo : BitVec 16).toNat < 0x8000 →
      s.distanceUsable (codecGbc.rppDistance.eval c [lo, hi]) = false

/-- Words of 95_test_vectors V1, E1, V7, V8 and V2, the byte of V25 with another after it, and an RPP cut short as in
V19, all in the layout `CODEC_GBC` (decisions D1, D2; log entries 1, 2), decode to what they stand for: a check of a few
fixed words. -/
def Obligations.SampleWords : Prop :=
  decode [0x00#8] = .token .endToken [] ∧
  decode [0x03#8, 0xFF#8] = .token (.rpb 0xFF#8 4) [] ∧
  decode [0x7F#8, 0x11#8] = .token (.unk 0x7F#8) [0x11#8] ∧
  decode [0x81#8, 0xFD#8, 0xFF#8] = .token (.rpp 3 2) [] ∧
  decode [0xC2#8, 0x10#8, 0x20#8, 0x30#8] = .token (.lit 3) [0x10#8, 0x20#8, 0x30#8] ∧
  decode [0x05#8] = .truncated (.operand .rpb) ∧
  decode [0x80#8, 0x01#8] = .truncated (.operand .rpp) ∧
  decode [] = .truncated .indicator

/-! ## The tokens -/

/-- 40 R125: an END at the cursor, whatever stands after it, ends the decode with success. That every later call of
`decodeNext` answers EndOfStream and changes nothing is R30 and R120 with decision D7. -/
def Obligations.EndToken : Prop :=
  (∀ s : State, s.dstat = .run →
    exec .endToken s = .next { s with sc := s.sc + 1, dstat := .ended, status := .ok, ws := .done }) ∧
  (∀ (s : State) (c : Byte) (rest : List Byte), s.atFetch → s.cfg.codec.classOf c = .endToken →
    s.stream = c :: rest →
    step s = .next { s with sc := s.sc + 1, dstat := .ended, status := .ok, ws := .done }) ∧
  (∀ s : State, s.dstat = .ended → decodeNext s = (.endOfStream, s))

/-- 40 R126: RPB reads its operand at the fetch and then produces its value `count` times; a missing operand byte is
TruncatedStream before any byte is produced. What the decoder's elements keep after that error is R204 with decision
D24 (log entry 26); how value and count are assembled is the codec's (R91; log entry 34), for `CODEC_GBC` see
IndicatorClasses. -/
def Obligations.RepeatByteToken : Prop :=
  (∀ (s : State) (value : Byte) (count : Nat), s.dstat = .run → 1 ≤ count →
    exec (.rpb value count) s = .next { s with
      sc := s.sc + (1 + s.cfg.codec.rpbOperands), val := value, tk := .rpb, rem := count - 1
      hist := s.hist ++ [value], pend := value, ws := .gate }) ∧
  (∀ (s : State) (c : Byte) (ops rest : List Byte), s.atFetch → s.cfg.codec.classOf c = .rpb →
    ops.length = s.cfg.codec.rpbOperands → s.stream = c :: (ops ++ rest) →
    step s = exec (.rpb (BitVec.ofNat 8 (s.cfg.codec.rpbValue.eval c ops)) (s.cfg.codec.rpbCount.eval c ops)) s) ∧
  (∀ s : State, s.engineTurn → s.ws = .pull → s.dstat = .run → s.tk = .rpb → 0 < s.rem →
    step s = .next { s with
      rem := s.rem - 1, hist := s.hist ++ [s.val], pend := s.val, ws := .gate }) ∧
  (∀ (s : State) (c : Byte) (ops : List Byte), s.atFetch → s.cfg.codec.classOf c = .rpb →
    ops.length < s.cfg.codec.rpbOperands → s.stream = c :: ops →
    step s = .next { s with
      sc := s.sc + (1 + ops.length), dstat := .error .truncated, status := .truncated, ws := .done })

/-- 40 R127, R131 (decisions D2, D17, D24; log entries 2, 26, 34): RPP checks its distance once, at the fetch, and then
copies each byte from `off` positions back in the output; a distance that is not backward (0, or above `MAX_OFFSET`) or
reaches before the output is MalformedStream, a missing distance byte is TruncatedStream. -/
def Obligations.RepeatPatternToken : Prop :=
  (∀ (s : State) (o count : Nat) (b : Byte), s.dstat = .run → 1 ≤ count →
    1 ≤ o → o ≤ s.cfg.codec.maxOffset → o ≤ s.n → s.hist[s.n - o]? = some b →
    exec (.rpp o count) s = .next { s with
      sc := s.sc + (1 + s.cfg.codec.rppOperands), off := o, tk := .rpp, rem := count - 1
      hist := s.hist ++ [b], pend := b, ws := .gate }) ∧
  (∀ (s : State) (o count : Nat), s.dstat = .run → o = 0 ∨ s.cfg.codec.maxOffset < o ∨ s.n < o →
    exec (.rpp o count) s = .next { s with
      sc := s.sc + (1 + s.cfg.codec.rppOperands), dstat := .error .malformed, status := .malformed, ws := .done }) ∧
  (∀ (s : State) (c : Byte) (ops rest : List Byte), s.atFetch → s.cfg.codec.classOf c = .rpp →
    ops.length = s.cfg.codec.rppOperands → s.stream = c :: (ops ++ rest) →
    step s = exec (.rpp (s.cfg.codec.rppDistance.eval c ops) (s.cfg.codec.rppCount.eval c ops)) s) ∧
  (∀ (s : State) (b : Byte), s.engineTurn → s.ws = .pull → s.dstat = .run → s.tk = .rpp → 0 < s.rem →
    1 ≤ s.off → s.off ≤ s.n → s.hist[s.n - s.off]? = some b →
    step s = .next { s with rem := s.rem - 1, hist := s.hist ++ [b], pend := b, ws := .gate }) ∧
  (∀ (s : State) (c : Byte) (ops : List Byte), s.atFetch → s.cfg.codec.classOf c = .rpp →
    ops.length < s.cfg.codec.rppOperands → s.stream = c :: ops →
    step s = .next { s with
      sc := s.sc + (1 + ops.length), dstat := .error .truncated, status := .truncated, ws := .done })

/-- 40 R127 (decision D2; log entries 2, 34): wherever the distance is usable, RPP completes (its copied byte
exists). -/
def Obligations.RepeatPatternCompletes : Prop :=
  ∀ (s : State) (o count : Nat), s.dstat = .run → 1 ≤ count →
    1 ≤ o → o ≤ s.cfg.codec.maxOffset → o ≤ s.n →
    ∃ t b, exec (.rpp o count) s = .next t ∧ s.hist[s.n - o]? = some b ∧
      t.hist = s.hist ++ [b] ∧ t.pend = b ∧ t.ws = .gate ∧ t.sc = s.sc + (1 + s.cfg.codec.rppOperands) ∧
      t.tk = .rpp ∧ t.off = o ∧ t.rem = count - 1

/-- 40 R128 (decisions D5, D24; log entries 18, 26): LIT reads no data at the fetch; each byte is read from the stream
as it is produced, and the first missing one is TruncatedStream, after the present ones. (`litOperands` is 0 in a
layout whose run stands in the indicator, as in `CODEC_GBC`; log entry 34.) -/
def Obligations.LiteralToken : Prop :=
  (∀ (s : State) (run : Nat) (b : Byte), s.dstat = .run → 1 ≤ run →
    s.src[s.sc + (1 + s.cfg.codec.litOperands)]? = some b →
    exec (.lit run) s = .next { s with
      sc := s.sc + (2 + s.cfg.codec.litOperands), tk := .lit, rem := run - 1, hist := s.hist ++ [b]
      pend := b, ws := .gate }) ∧
  (∀ (s : State) (run : Nat), s.dstat = .run → 1 ≤ run →
    s.src[s.sc + (1 + s.cfg.codec.litOperands)]? = none →
    exec (.lit run) s = .next { s with
      sc := s.sc + (1 + s.cfg.codec.litOperands), tk := .lit, rem := run
      dstat := .error .truncated, status := .truncated, ws := .done }) ∧
  (∀ (s : State) (c : Byte) (ops rest : List Byte), s.atFetch → s.cfg.codec.classOf c = .lit →
    ops.length = s.cfg.codec.litOperands → s.stream = c :: (ops ++ rest) →
    step s = exec (.lit (s.cfg.codec.litRun.eval c ops)) s) ∧
  (∀ (s : State) (b : Byte), s.engineTurn → s.ws = .pull → s.dstat = .run → s.tk = .lit → 0 < s.rem →
    s.src[s.sc]? = some b →
    step s = .next { s with
      sc := s.sc + 1, rem := s.rem - 1, hist := s.hist ++ [b], pend := b, ws := .gate }) ∧
  (∀ s : State, s.engineTurn → s.ws = .pull → s.dstat = .run → s.tk = .lit → 0 < s.rem →
    s.src[s.sc]? = none →
    step s = .next { s with dstat := .error .truncated, status := .truncated, ws := .done })

/-- 40 R129 (decisions D3, D17, D24; log entries 3, 26): an unrecognised indicator byte is UnknownToken, whatever stands
after it; only the indicator is read and no byte is produced. -/
def Obligations.UnknownIndicator : Prop :=
  (∀ (s : State) (c : Byte), s.dstat = .run →
    exec (.unk c) s = .next { s with
      sc := s.sc + 1, dstat := .error .unknown, status := .unknown, ws := .done }) ∧
  (∀ (s : State) (c : Byte) (rest : List Byte), s.atFetch → s.cfg.codec.classOf c = .unknown →
    s.stream = c :: rest →
    step s = .next { s with
      sc := s.sc + 1, dstat := .error .unknown, status := .unknown, ws := .done })

/-- 60 R203, first of its four places: a stream that ends between tokens is TruncatedStream, and `sc` stays; so does
the rest, by R204 with decision D24 (log entry 26). -/
def Obligations.MissingIndicator : Prop :=
  ∀ s : State, s.atFetch → s.stream = [] →
    step s = .next { s with dstat := .error .truncated, status := .truncated, ws := .done }

/-- The frame of the five tokens (40 R120, R125 to R129): a pull writes the decoder's elements, `pend`, `ws` and
`STATUS`, and stores nothing. Each token leaves alone the decoder's elements it does not name. That `pend` keeps its
byte where a command ends is the model's choice (R32; log entry 32). -/
def Obligations.TokenFrame : Prop :=
  ∀ (i : Instr) (s t : State), i.isToken = true → exec i s = .next t →
    (t.cfg = s.cfg ∧ t.host = s.host ∧ t.oracle = s.oracle ∧ t.slots = s.slots ∧ t.draws = s.draws ∧
      t.src = s.src ∧ t.srcBase = s.srcBase ∧ t.cmd = s.cmd ∧ t.dst0 = s.dst0 ∧ t.tile0 = s.tile0 ∧
      t.dk = s.dk ∧ t.ti = s.ti ∧ t.bo = s.bo ∧ t.wn = s.wn ∧ t.trace = s.trace ∧
      ∀ a, Memory.read t.mem a = Memory.read s.mem a) ∧
    (i = .endToken ∨ (∃ c, i = .unk c) → t.tk = s.tk ∧ t.rem = s.rem ∧ t.val = s.val ∧ t.off = s.off ∧
      t.hist = s.hist ∧ t.pend = s.pend) ∧
    ((∃ v n, i = .rpb v n) → t.off = s.off) ∧
    ((∃ o n, i = .rpp o n) → t.val = s.val) ∧
    ((∃ n, i = .lit n) → t.val = s.val ∧ t.off = s.off) ∧
    (t.ws = .gate → t.status = s.status) ∧
    (t.ws = .done → t.hist = s.hist ∧ t.pend = s.pend)

/-! ## The commands -/

/-- 41 R161 to R165, 10_state R42 (decision D18): a command that may start, on an instance with enough history and
with an argument that fits its register, starts: the working state is set and nothing else changes. -/
def Obligations.CommandsStart : Prop :=
  ∀ (s : State) (a : CmdArgs), s.busy = false → historyFits s.cfg = true →
    (a.dstFits s.cfg = true → ∃ t, exec (.dbuf a) s = .next t ∧ StartedFrom s 0#2 .buf a t) ∧
    (a.tileFits s.cfg = true →
      (∃ t, exec (.dbkg a) s = .next t ∧ StartedFrom s 1#2 (.tiles .bg) a t) ∧
      (∃ t, exec (.dwin a) s = .next t ∧ StartedFrom s 2#2 (.tiles .bg) a t) ∧
      (∃ t, exec (.dspr a) s = .next t ∧ StartedFrom s 3#2 (.tiles .spr) a t))

/-- 41 R160 and 93 U4 (log entry 12): no command starts while one runs. -/
def Obligations.NoStartWhileBusy : Prop :=
  ∀ (i : Instr) (s : State), i.isToken = false → s.busy = true → exec i s = .refused .startWhileBusy

/-- 20_memory R65 and 93 U6 (log entry 15), 30_encoding R104 (log entry 21): what else a command is refused for. -/
def Obligations.StartRefusals : Prop :=
  ∀ (i : Instr) (s : State), i.isToken = false → s.busy = false →
    (historyFits s.cfg = false → exec i s = .refused .historyWindowTooSmall) ∧
    (historyFits s.cfg = true → i.wellFormed s.cfg = false → exec i s = .refused .argumentTooWide)

/-- 41 R163: DWIN does what DBKG does, and no later step tells the two selectors apart. -/
def Obligations.WindowIsBackground : Prop :=
  (∀ (a : CmdArgs) (s : State),
    exec (.dwin a) s = mapNext (fun t => { t with cmd := 2#2 }) (exec (.dbkg a) s)) ∧
  (∀ (s : State) (c : BitVec 2), ¬ s.hostTurn →
    step { s with cmd := c } = mapNext (fun t => { t with cmd := c }) (step s))

/-! ## The engine's steps -/

/-- 41 R167: with no move of the host, exactly the phases `IDLE` and `DONE` have no step. -/
def Obligations.EngineSteps : Prop :=
  ∀ s : State, s.host = [] → (step s = .fault .noEnabledStep ↔ s.busy = false)

/-- 41 R168: what the pull step does with each answer of `decodeNext`. No write happens in it, and with an answer that
ends the command none after it: the engine then has no step. -/
def Obligations.PullAnswers : Prop :=
  ∀ (s t : State), s.engineTurn → s.ws = .pull →
    (∀ b, decodeNext s = (.byte b, t) → step s = .next { t with pend := b, ws := .gate }) ∧
    (decodeNext s = (.endOfStream, t) → step s = .next { t with status := .ok, ws := .done }) ∧
    (decodeNext s = (.error .malformed, t) → step s = .next { t with status := .malformed, ws := .done }) ∧
    (decodeNext s = (.error .unknown, t) → step s = .next { t with status := .unknown, ws := .done }) ∧
    (decodeNext s = (.error .truncated, t) → step s = .next { t with status := .truncated, ws := .done }) ∧
    (∀ u, step s = .next u → u.mem = s.mem ∧ u.trace = s.trace ∧ u.wn = s.wn ∧
      (u.ws = .done → u.host = [] → step u = .fault .noEnabledStep))

/-- 60 R208: an error the decoder answers is copied to `STATUS`, the command ends there, nothing else changes and the
engine has no step after it; in a state the invariants hold in, every byte produced before it has been written. -/
def Obligations.ErrorEntry : Prop :=
  ∀ (s t : State) (e : StreamError), s.engineTurn → s.ws = .pull → decodeNext s = (.error e, t) →
    step s = .next { t with status := Status.ofError e, ws := .done } ∧
    t.mem = s.mem ∧ t.trace = s.trace ∧ t.wn = s.wn ∧ t.hist = s.hist ∧
    (s.host = [] → step { t with status := Status.ofError e, ws := .done } = .fault .noEnabledStep) ∧
    (Inv s → t.outCount = t.n)

/-- 41 R169, R172: the write step for the buffer stores `pend` at `DST0 + wn`, at once and without a mode. In a tile
table the byte stored is free (70 R240, 93 U9; log entry 16); that it is surely `pend` everywhere else, the tile tables
being all of video memory, is the model's choice (log entry 33, unsafe). `draws` is the model's own. -/
def Obligations.BufferWrite : Prop :=
  ∀ s : State, s.engineTurn → s.ws = .gate → s.dk = .buf →
    s.dst0 + s.wn < 2 ^ s.cfg.addrBits → s.inSource (s.dst0 + s.wn) = false →
    ∃ v, (s.inTables (s.dst0 + s.wn) = false → v = s.pend) ∧
      step s = .next { s with
        mem := Memory.write s.mem (s.dst0 + s.wn) v
        trace := s.trace ++ [{ addr := s.dst0 + s.wn, byte := s.pend, mode := none }]
        wn := s.wn + 1, ws := .pull, draws := s.draws + 1 }

/-- 41 R170, R173, R174: one slot. A writable answer writes `pend` at `BASE + ti * T + bo` and advances the cursor; a
forbidden one changes nothing but the answers left. -/
def Obligations.GatedWrite : Prop :=
  ∀ (s : State) (tb : TileTable), s.engineTurn → s.ws = .gate → s.dk = .tiles tb →
    (tableAllows (s.cfg.table tb) s.nextAnswer = true → s.ti < (s.cfg.table tb).tiles →
      (s.cfg.table tb).base + s.ti * (s.cfg.table tb).tileBytes + s.bo < 2 ^ s.cfg.addrBits →
      s.inSource ((s.cfg.table tb).base + s.ti * (s.cfg.table tb).tileBytes + s.bo) = false →
      step s = .next { s with
        oracle := s.oracle.tail, slots := s.slots + 1
        mem := Memory.write s.mem ((s.cfg.table tb).base + s.ti * (s.cfg.table tb).tileBytes + s.bo) s.pend
        trace := s.trace ++
          [{ addr := (s.cfg.table tb).base + s.ti * (s.cfg.table tb).tileBytes + s.bo
             byte := s.pend, mode := some s.nextAnswer }]
        wn := s.wn + 1
        bo := if s.bo + 1 = (s.cfg.table tb).tileBytes then 0 else s.bo + 1
        ti := if s.bo + 1 = (s.cfg.table tb).tileBytes then s.ti + 1 else s.ti
        ws := .pull }) ∧
    (tableAllows (s.cfg.table tb) s.nextAnswer = false →
      step s = .next { s with oracle := s.oracle.tail, slots := s.slots + 1 })

/-- 41 R174: the cursor after a write to a tile destination; for the buffer only `wn` advances. -/
def Obligations.CursorAdvance : Prop :=
  ∀ s t : State, s.engineTurn → s.ws = .gate → step s = .next t →
    (s.dk = .buf → t.wn = s.wn + 1 ∧ t.bo = s.bo ∧ t.ti = s.ti) ∧
    ∀ tb, s.dk = .tiles tb → tableAllows (s.cfg.table tb) s.nextAnswer = true →
      t.wn = s.wn + 1 ∧
      (s.bo + 1 = (s.cfg.table tb).tileBytes → t.bo = 0 ∧ t.ti = s.ti + 1) ∧
      (s.bo + 1 ≠ (s.cfg.table tb).tileBytes → t.bo = s.bo + 1 ∧ t.ti = s.ti)

/-- 10_state R35: `wn` is 0 after a Start and grows by 1 with each write; for the buffer it gives the next write's
address. -/
def Obligations.CountOfWrites : Prop :=
  (∀ (i : Instr) (s t : State), i.isToken = false → exec i s = .next t → t.wn = 0 ∧ t.trace = []) ∧
  (∀ s t : State, step s = .next t → ¬ s.hostTurn →
    (t.wn = s.wn ∧ t.trace = s.trace) ∨
    (t.wn = s.wn + 1 ∧ ∃ e, t.trace = s.trace ++ [e] ∧ (s.dk = .buf → e.addr = s.dst0 + s.wn)))

/-- 41 R175 (decision D14; log entry 14): a write outside the range of the destination is refused, for a tile table
in an allowed slot only. The third clause, a slot of the table whose address has no cell, is the model's inference (log
entry 14). -/
def Obligations.OutOfRangeRefused : Prop :=
  ∀ s : State, s.engineTurn → s.ws = .gate →
    (s.dk = .buf → 2 ^ s.cfg.addrBits ≤ s.dst0 + s.wn → step s = .refused .addressOutOfRange) ∧
    (∀ tb, s.dk = .tiles tb → tableAllows (s.cfg.table tb) s.nextAnswer = true →
      (s.cfg.table tb).tiles ≤ s.ti → step s = .refused .addressOutOfRange) ∧
    (∀ tb, s.dk = .tiles tb → tableAllows (s.cfg.table tb) s.nextAnswer = true →
      s.ti < (s.cfg.table tb).tiles → 2 ^ s.cfg.addrBits ≤ s.tileAddr tb →
      step s = .refused .addressOutOfRange)

/-- 20_memory R76 (decision D20; log entry 13): a write that would land in the stream is refused. -/
def Obligations.OverlapRefused : Prop :=
  ∀ s : State, s.engineTurn → s.ws = .gate →
    (s.dk = .buf → s.dst0 + s.wn < 2 ^ s.cfg.addrBits → s.inSource (s.dst0 + s.wn) = true →
      step s = .refused .sourceOverlap) ∧
    (∀ tb, s.dk = .tiles tb → tableAllows (s.cfg.table tb) s.nextAnswer = true →
      s.ti < (s.cfg.table tb).tiles → s.tileAddr tb < 2 ^ s.cfg.addrBits →
      s.inSource (s.tileAddr tb) = true → step s = .refused .sourceOverlap)

/-- The frame of the two write steps (41 R169, R170): the decoder, the arguments and `STATUS` stay, every byte of memory
but the one at the destination's address reads as before, and in a forbidden slot every byte does. That `pend` keeps its
byte after the write is the model's choice (R32; log entry 32). -/
def Obligations.WriteFrame : Prop :=
  ∀ s t : State, s.engineTurn → s.ws = .gate → step s = .next t →
    (t.cfg = s.cfg ∧ t.host = s.host ∧ t.src = s.src ∧ t.srcBase = s.srcBase ∧ t.cmd = s.cmd ∧
      t.dst0 = s.dst0 ∧ t.tile0 = s.tile0 ∧ t.sc = s.sc ∧ t.tk = s.tk ∧ t.rem = s.rem ∧ t.val = s.val ∧
      t.off = s.off ∧ t.hist = s.hist ∧ t.dstat = s.dstat ∧ t.pend = s.pend ∧ t.dk = s.dk ∧
      t.status = s.status) ∧
    (s.dk = .buf → t.oracle = s.oracle ∧ t.slots = s.slots ∧ t.ti = s.ti ∧ t.bo = s.bo ∧
      ∀ a, a ≠ s.bufferAddr → Memory.read t.mem a = Memory.read s.mem a) ∧
    (∀ tb, s.dk = .tiles tb → t.draws = s.draws ∧
      (∀ a, a ≠ s.tileAddr tb → Memory.read t.mem a = Memory.read s.mem a) ∧
      (tableAllows (s.cfg.table tb) s.nextAnswer = false →
        (∀ a, Memory.read t.mem a = Memory.read s.mem a) ∧
        t.trace = s.trace ∧ t.wn = s.wn ∧ t.ti = s.ti ∧ t.bo = s.bo ∧ t.ws = .gate))

/-! ## The whole machine -/

/-- 20_memory R62, R63, 41 R168: memory changes in a write step only, by at most one byte, which the trace records;
every other step leaves memory alone, and only a reset or a Start empties the trace (R232, R165). -/
def Obligations.OnlyWritesStore : Prop :=
  ∀ s t : State, step s = .next t →
    (t.mem = s.mem ∧ (t.trace = s.trace ∨ (s.hostTurn ∧ t.trace = []))) ∨
    (s.ws = .gate ∧ ∃ a m, t.trace = s.trace ++ [{ addr := a, byte := s.pend, mode := m }] ∧
      ∀ a', a' ≠ a → Memory.read t.mem a' = Memory.read s.mem a')

/-- 10_state R38 (20_memory R63 says it of both layers): the block only writes memory, one byte at a time, and never
reads it: what memory holds has no bearing on anything a step does but on memory itself. A step that changes memory is a
write step, and writes the one byte at the destination's address: the pending byte, but for a buffer that lies in a tile
table (93 U9; that it is free there, and there only, is the model's, log entries 16, 33). -/
def Obligations.DestinationNeverRead : Prop :=
  (∀ (s : State) (m : Memory),
    mapNext (fun t => { t with mem := [] }) (step { s with mem := m }) =
      mapNext (fun t => { t with mem := [] }) (step s)) ∧
  (∀ s t : State, step s = .next t →
    t.mem = s.mem ∨
    (s.ws = .gate ∧ s.dk = .buf ∧ ∃ v, (s.inTables s.bufferAddr = false → v = s.pend) ∧
      t.mem = Memory.write s.mem s.bufferAddr v) ∨
    (s.ws = .gate ∧ ∃ tb, s.dk = .tiles tb ∧ t.mem = Memory.write s.mem (s.tileAddr tb) s.pend))

/-- 20_memory R66, 41 R161, R170: an oracle answer is consumed by a gated write step and by nothing else, and each such
step consumes exactly one (the form of the oracle is log entry 10). -/
def Obligations.AnswersConsumed : Prop :=
  (∀ s t : State, step s = .next t →
    (t.slots = s.slots ∧ t.oracle = s.oracle) ∨
    (s.ws = .gate ∧ s.dk ≠ .buf ∧ t.slots = s.slots + 1 ∧ t.oracle = s.oracle.tail)) ∧
  (∀ s t : State, s.engineTurn → s.ws = .gate → s.dk ≠ .buf → step s = .next t →
    t.slots = s.slots + 1 ∧ t.oracle = s.oracle.tail)

/-- 00_scope R7: the parameters of the instance never change, and what a command was given changes only with a reset
or the next Start. -/
def Obligations.ParametersFixed : Prop :=
  ∀ s t : State, step s = .next t →
    t.cfg = s.cfg ∧
    (¬ s.hostTurn → t.src = s.src ∧ t.srcBase = s.srcBase ∧ t.cmd = s.cmd ∧ t.dst0 = s.dst0 ∧
      t.tile0 = s.tile0 ∧ t.dk = s.dk)

/-- 10_state R24, 40 R133: the source cursor is never rewound within a command; a step moves it by no more than a fetch
and a literal's first byte take, in `CODEC_GBC` 3 bytes (log entry 1). -/
def Obligations.CursorNeverRewinds : Prop :=
  (∀ s t : State, step s = .next t → ¬ s.hostTurn → s.sc ≤ t.sc ∧ t.sc ≤ s.sc + s.cfg.codec.reach) ∧
  codecGbc.reach = 3

/-- 10_state R30 (decision D7): once the decoder has an outcome, it and the decoder's elements stay as they are for the rest of
the command. -/
def Obligations.OutcomeFrozen : Prop :=
  ∀ s t : State, step s = .next t → ¬ s.hostTurn → s.dstat ≠ .run → SameDecoder s t

/-- 10_state R37: a final status stays until the next Start (or a reset). -/
def Obligations.StatusKept : Prop :=
  ∀ s t : State, step s = .next t → ¬ s.hostTurn → s.busy = false → t.status = s.status ∧ t.ws = s.ws

/-- 60 R209: a step that ends a command, with success or an error, takes nothing back. -/
def Obligations.NoRollback : Prop :=
  ∀ s t : State, step s = .next t → s.ws ≠ .done → t.ws = .done →
    t.mem = s.mem ∧ t.trace = s.trace ∧ t.wn = s.wn

/-- 40 R134: a pull depends on the decoder's elements alone: two states that agree in them, whatever their
destinations, oracles and phases of the host, still agree in them after a pull each, and in the outcome. -/
def Obligations.PullIndependent : Prop :=
  ∀ s u t v : State, SameDecoding s u → s.engineTurn → u.engineTurn → s.ws = .pull → u.ws = .pull →
    step s = .next t → step u = .next v →
    SameDecoding t v ∧ t.ws = v.ws ∧ (t.ws = .gate → t.pend = v.pend) ∧ (t.ws = .done → t.status = v.status)

/-- 40 R134: "decoding the same CompressedStream twice into two buffers yields identical buffers": two commands, any
two of the four with any arguments and any oracles, that were started on the same stream and have ended, have produced
the same output and ended in the same outcome. The states are any that agree as two fresh Starts do. The two buffers
hold the same bytes where no tile table lies (there a stored byte is free, 93 U9; log entries 16, 33). -/
def Obligations.SameStreamSameOutput : Prop :=
  (∀ (i j : Instr) (s u t v : State), i.isToken = false → j.isToken = false →
    s.cfg.codec = u.cfg.codec → exec i s = .next t → exec j u = .next v → t.src = v.src → SameDecoding t v) ∧
  (∀ (s u t v : State) (j k : Nat), SameDecoding s u → s.ws = .pull → u.ws = .pull →
    s.host = [] → u.host = [] → Reaches s j t → Reaches u k v → t.ws = .done → v.ws = .done →
    t.hist = v.hist ∧ t.sc = v.sc ∧ t.dstat = v.dstat ∧ t.status = v.status ∧
    (Inv t → Inv v → t.dk = .buf → v.dk = .buf → ∀ k, k < t.n →
      t.inTables (t.dst0 + k) = false → v.inTables (v.dst0 + k) = false →
      Memory.read t.mem (t.dst0 + k) = Memory.read v.mem (v.dst0 + k)))

/-- 40 R132: byte `i` of a RepeatPattern is byte `N - off + (i mod off)` of the history it started from. -/
def Obligations.OverlappingCopy : Prop :=
  ∀ (s : State) (k : Nat), s.dstat = .run → s.tk = .rpp → 1 ≤ s.off → s.off ≤ s.n → k ≤ s.rem →
    (emitMany k s).hist.length = s.n + k ∧
    (emitMany k s).hist.take s.n = s.hist ∧
    ∀ i, i < k → (emitMany k s).hist[s.n + i]? = s.hist[s.n - s.off + i % s.off]?

/-- 41 R177: while the oracle answers forbidden modes, a gated write waits: no state changes but the answers
consumed. -/
def Obligations.ForbiddenWaits : Prop :=
  ∀ (s : State) (tb : TileTable) (ms rest : List Mode), s.ws = .gate → s.dk = .tiles tb → s.host = [] →
    s.oracle = ms ++ rest → (∀ m ∈ ms, tableAllows (s.cfg.table tb) m = false) →
    Reaches s ms.length { s with oracle := rest, slots := s.slots + ms.length }

/-- 41 R176: after any number of forbidden answers, the first allowed one carries the write of the pending byte, and
no other answer does. -/
def Obligations.WriteInAllowedSlot : Prop :=
  ∀ (s : State) (tb : TileTable) (ms rest : List Mode) (m : Mode), s.ws = .gate → s.dk = .tiles tb →
    s.host = [] → s.oracle = ms ++ m :: rest → (∀ x ∈ ms, tableAllows (s.cfg.table tb) x = false) →
    tableAllows (s.cfg.table tb) m = true → s.tileRefusal? tb = none →
    ∃ t, Reaches s (ms.length + 1) t ∧ t.ws = .pull ∧ t.oracle = rest ∧ t.wn = s.wn + 1 ∧
      t.mem = Memory.write s.mem (s.tileAddr tb) s.pend ∧
      t.trace = s.trace ++ [{ addr := s.tileAddr tb, byte := s.pend, mode := some m }]

/-! ## Invariants -/

/-- 10_state R41 for phase, status and trace; 00_scope section 5 and 20_memory R70 for the numbers of the instance, the
spec's defaults (log entries 1, 2, 4, 5). The other values are the model's choice (log entry 6). -/
def Obligations.ResetState : Prop :=
  State.reset.ws = .idle ∧ State.reset.status = .idle ∧ State.reset.status.code = 0#3 ∧
    State.reset.trace = [] ∧ State.reset.busy = false ∧ State.reset.cfg = Config.gameBoy ∧
    Config.gameBoy.codec = codecGbc ∧ Config.gameBoy.codec.maxCount = 64 ∧ Config.gameBoy.codec.maxOffset = 32768 ∧
    Config.gameBoy.addrBits = 16 ∧ Config.gameBoy.tileIdxBits = 8 ∧ Config.gameBoy.histCap = none ∧
    Config.gameBoy.bg.base = 0x9000 ∧ Config.gameBoy.bg.tileBytes = 16 ∧ Config.gameBoy.bg.tiles = 128 ∧
    Config.gameBoy.spr.base = 0x8000 ∧ Config.gameBoy.spr.tileBytes = 16 ∧ Config.gameBoy.spr.tiles = 256

/-- The invariants hold after reset (10_state section 4). The spec gives the elements they speak of no value at reset
(R41); that the values the model gives them meet the invariants is the model's choice (log entry 6, unsafe), and so are
the default parameters (log entries 1, 2, 4, 5). -/
def Obligations.InvAtReset : Prop := Inv State.reset

/-- Every step keeps memory in its canonical form (the model's form of 10_state R38; log entry 8). -/
def Obligations.StepKeepsCanonicalMemory : Prop :=
  ∀ s t : State, Memory.wf s.mem → step s = .next t → Memory.wf t.mem

/-- Every step keeps the decoder's elements in their ranges (10_state R24 to R28 and section 4), on an instance whose
codec meets the contract of 30_encoding R91 (log entry 34). That a reset step does rests on the values the model gives
the decoder's elements (R41 gives none): the model's choice (log entries 6, unsafe, and 24); that the unspecified `off`
of a Start lies in its range is log entry 7. -/
def Obligations.StepKeepsDecoderInv : Prop :=
  ∀ s t : State, DecoderInv s → step s = .next t → DecoderInv t

/-- Every step keeps the model's invariants: those of 10_state section 4 (phase, status and counters agree), with 20_memory
R62, R72 and 41 R176 (the trace is the written prefix of the output at its addresses, no write of a tile command stands
in a forbidden slot), those of StepKeepsDecoderInv, and memory. Of these the following are the model's choice and no rule
of the spec. That `wn` and `n` are 0 in `IDLE`, and that a reset step leaves elements that meet the invariants, rests on
the values the model gives at reset: section 4 has `wn = n` in `PULL` and `DONE` only, and R41 gives no value (log entries
6, unsafe, and 24). That memory holds the written prefix outside the tile tables for certain, and for a buffer only there,
rests on which writes meet the controller (log entries 33, unsafe, and 16). The canonical form of memory is log entry 8. -/
def Obligations.StepKeepsInv : Prop :=
  ∀ s t : State, Inv s → step s = .next t → Inv t

/-- In states the invariants hold in, the engine never runs into the faults of broken preconditions (20_memory R64,
40 R123). -/
def Obligations.NoBrokenPrecondition : Prop :=
  ∀ s : State, Inv s → step s ≠ .fault .noByteDue ∧ step s ≠ .fault .historyOutOfRange

/-- 40 R136: every step of a running command but a turn of the spin brings it nearer to its end, on an instance whose
codec meets the contract of 30_encoding R91 (log entry 34). -/
def Obligations.WorkShrinks : Prop :=
  ∀ s t : State, s.cfg.codec.Contract → s.engineTurn → step s = .next t →
    t.work < s.work ∨
      (s.ws = .gate ∧ (∃ tb, s.dk = .tiles tb ∧ tableAllows (s.cfg.table tb) s.nextAnswer = false) ∧
        t.work = s.work)

/-- 40 R136, 41 R161: a buffer command with room for its output, clear of the stream, ends, within a number of steps
its stream bounds. -/
def Obligations.BufferCommandEnds : Prop :=
  ∀ s : State, Inv s → s.busy = true → s.host = [] → s.dk = .buf → s.srcBase = none →
    s.dst0 + s.cfg.codec.maxCount * s.srcLen ≤ 2 ^ s.cfg.addrBits →
    ∃ k t, k ≤ s.work ∧ Reaches s k t ∧ t.ws = .done ∧ t.wn = t.n

/-! ## The step -/

/-- 40 R120, R121, 41 R168: when the bytes at the cursor decode to a token, the step of a pull that fetches is that
token's execution. -/
def Obligations.StepRunsToken : Prop :=
  ∀ (s : State) (i : Instr) (rest : List Byte), s.atFetch → decodeWith s.cfg.codec s.stream = .token i rest →
    step s = exec i s

/-- 41 R160, R165: a request at the command port of a block that is not busy is executed, and taken from the host's
moves. -/
def Obligations.StepRunsCommand : Prop :=
  ∀ (s : State) (r : Request) (h : List HostMove), s.host = .start r :: h → s.busy = false →
    step s = exec (decodeRequest r) { s with host := h }

/-- 41 R160, 60 R220 (the form of the host is the model's choice, log entry 9): a waiting host lets the engine step,
and a host with a command waits while the block is busy. -/
def Obligations.HostLetsEngineStep : Prop :=
  (∀ (s : State) (h : List HostMove), s.host = .wait :: h → s.busy = true →
    step s = mapNext (fun t => { t with host := h }) (step { s with host := [] })) ∧
  (∀ (s : State) (h : List HostMove), s.host = .wait :: h → s.busy = false →
    step s = .next { s with host := h }) ∧
  (∀ (s : State) (r : Request) (h : List HostMove), s.host = .start r :: h → s.busy = true →
    step s = mapNext (fun t => { t with host := .start r :: h }) (step { s with host := [] }))

/-- 70 R232, R233: a reset, in any phase, leaves phase and status `IDLE` and an empty trace and does not touch
memory. -/
def Obligations.ResetStep : Prop :=
  ∀ (s : State) (h : List HostMove), s.host = .reset :: h →
    ∃ t, step s = .next t ∧ t.ws = .idle ∧ t.status = .idle ∧ t.trace = [] ∧ t.mem = s.mem ∧
      t.cfg = s.cfg ∧ t.host = h

/-- 30_encoding R105 (numbers are decision D16): the codes of `STATUS` are the six numbers from 0 to 5, all
different. -/
def Obligations.StatusCodes : Prop :=
  (Status.idle.code = 0#3 ∧ Status.busy.code = 1#3 ∧ Status.ok.code = 2#3 ∧ Status.malformed.code = 3#3 ∧
    Status.unknown.code = 4#3 ∧ Status.truncated.code = 5#3) ∧
  ∀ x : Status, x.code ≠ 6#3 ∧ x.code ≠ 7#3

/-! ## The controller's modes -/

/-- 20_memory R66, 00_scope section 5 (decision D12): the answer to a query is a value of `Mode` the instance has; one
without a script is one of them, whatever the free value is (log entries 5, 10). -/
def Obligations.AnswersAreModes : Prop :=
  ∀ s : State, s.cfg.modes ≠ [] → (∀ m ∈ s.oracle, m ∈ s.cfg.modes) → s.nextAnswer ∈ s.cfg.modes

/-- 30_encoding R106 (decision D12; log entry 5): the default modes are the four 2-bit codes, and those with bit 1 clear,
0 and 1, may write either tile table. -/
def Obligations.DefaultModes : Prop :=
  (∀ m : BitVec 2, Mode.ofField m ∈ Config.gameBoy.modes ∧ (Mode.ofField m).code = m.toNat) ∧
  Config.gameBoy.modes.map Mode.code = [0, 1, 2, 3] ∧
  (Mode.hblank.code = 0 ∧ Mode.vblank.code = 1 ∧ Mode.attributeSearch.code = 2 ∧ Mode.pixelTransfer.code = 3) ∧
  ∀ (m : BitVec 2) (tb : TileTable), tableAllows (Config.gameBoy.table tb) (Mode.ofField m) = !m.getLsbD 1
end

