-- ==== Sys2Proof/Laws/Decode.lean ====
section
/-!
SUPPORT. The fields of an indicator byte, the contract of a codec, and what decoding accepts (30_encoding R91 to R96).
-/
namespace Sys2Proof

/-- The two fields of a byte put together from them (30_encoding R92): all 256 bytes. -/
theorem fields_append : ∀ (k : BitVec 2) (m : BitVec 6),
    kindField (k ++ m) = k ∧ countField (k ++ m) = m := by
  decide

theorem append_fields : ∀ c : Byte, kindField c ++ countField c = c := by
  decide

/-- The kind of an indicator byte is the kind it was built with (30_encoding R92). -/
@[simp] theorem kindField_indicatorByte (k : BitVec 2) (n : Nat) : kindField (indicatorByte k n) = k :=
  (fields_append k _).1

/-- The count field of an indicator byte is the count less one (30_encoding R92). -/
theorem countField_indicatorByte (k : BitVec 2) {n : Nat} (h1 : 1 ≤ n) (h2 : n ≤ maxCount) :
    (countField (indicatorByte k n)).toNat + 1 = n := by
  rw [indicatorByte, (fields_append k _).2, BitVec.toNat_ofNat]
  simp only [maxCount] at h2
  omega

/-- An indicator byte is its two fields (30_encoding R92). -/
theorem indicatorByte_fields (c : Byte) : indicatorByte (kindField c) ((countField c).toNat + 1) = c := by
  rw [indicatorByte, Nat.add_sub_cancel, BitVec.ofNat_toNat, BitVec.setWidth_eq]
  exact append_fields c

/-- The whole byte 0 is the two fields 0 (30_encoding R96). -/
theorem eq_zero_of_fields {c : Byte} (h1 : kindField c = 0#2) (h2 : countField c = 0#6) : c = 0#8 := by
  have h := indicatorByte_fields c
  rw [h1, h2] at h
  rw [← h]
  decide

/-- The classes of `CODEC_GBC` by the fields of a byte (30_encoding R92, R96): all 256 bytes. -/
theorem codecGbc_classOf : ∀ c : Byte, codecGbc.classOf c =
    if c = 0#8 then .endToken
    else if kindField c = 0#2 then .rpb
    else if kindField c = 1#2 then .unknown
    else if kindField c = 2#2 then .rpp
    else .lit := by
  decide

/-- The count of an indicator byte of `CODEC_GBC` is its count field plus 1 (30_encoding R92, R95). -/
theorem gbcCount_eval (c : Byte) (ops : List Byte) : gbcCount.eval c ops = (countField c).toNat + 1 := by
  simp only [gbcCount, Assembly.eval, countField, BitVec.extractLsb'_toNat, Nat.shiftRight_zero]

/-- `CODEC_GBC` meets the codec contract (30_encoding R91, decision D26). -/
theorem codecGbc_contract : codecGbc.Contract where
  counts := by
    intro c ops n _ h
    have hc : (countField c).toNat < 64 := (countField c).isLt
    have hn : n = (countField c).toNat + 1 := by
      unfold Codec.count? at h
      cases hk : codecGbc.classOf c <;> rw [hk] at h <;>
        simp only [codecGbc, gbcCount_eval, Option.some.injEq, reduceCtorEq] at h
      all_goals exact h.symm
    simp only [codecGbc, maxCount]
    omega
  offsets := by decide

/-- The distance field as a number: low byte first (30_encoding R94). -/
theorem distanceField_toNat (lo hi : Byte) : (distanceField lo hi).toNat = hi.toNat * 256 + lo.toNat := by
  have h : (hi ++ lo : BitVec (8 + 8)).toNat = hi.toNat <<< 8 ||| lo.toNat := BitVec.toNat_append ..
  have hlo : lo.toNat < 2 ^ 8 := lo.isLt
  rw [Nat.shiftLeft_eq, Nat.mul_comm, ← Nat.two_pow_add_eq_or_of_lt hlo] at h
  show (hi ++ lo : BitVec (8 + 8)).toNat = _
  omega

/-- The two bytes of a field give it back, and a field its two bytes. -/
theorem distanceField_bytes (d : BitVec 16) :
    distanceField (d.extractLsb' 0 8) (d.extractLsb' 8 8) = d := by
  apply BitVec.eq_of_toNat_eq
  rw [distanceField_toNat, BitVec.extractLsb'_toNat, BitVec.extractLsb'_toNat, Nat.shiftRight_eq_div_pow,
    Nat.shiftRight_eq_div_pow]
  have := d.isLt
  omega

theorem distanceField_low (lo hi : Byte) : (distanceField lo hi).extractLsb' 0 8 = lo := by
  apply BitVec.eq_of_toNat_eq
  rw [BitVec.extractLsb'_toNat, distanceField_toNat, Nat.shiftRight_eq_div_pow]
  have := lo.isLt
  omega

theorem distanceField_high (lo hi : Byte) : (distanceField lo hi).extractLsb' 8 8 = hi := by
  apply BitVec.eq_of_toNat_eq
  rw [BitVec.extractLsb'_toNat, distanceField_toNat, Nat.shiftRight_eq_div_pow]
  have h1 := lo.isLt
  have h2 := hi.isLt
  omega

/-- The distance `CODEC_GBC` assembles: minus the displacement (30_encoding R94). -/
theorem codecGbc_distance (c lo hi : Byte) :
    codecGbc.rppDistance.eval c [lo, hi] = 0x10000 - (distanceField lo hi).toNat := by
  rw [distanceField_toNat]
  simp only [codecGbc, Assembly.eval, List.getD_cons_zero, List.getD_cons_succ]
  omega

/-- The bytes of a distance give it back. -/
theorem codecGbc_distanceBytes (c : Byte) {o : Nat} (h1 : 1 ≤ o) (h2 : o ≤ 0x10000) :
    codecGbc.rppDistance.eval c (distanceBytes o) = o := by
  rw [distanceBytes, codecGbc_distance, distanceField_bytes, BitVec.toNat_ofNat]
  omega

/-- What a decoded token is, under any codec: its indicator byte and its operand bytes, assembled (30_encoding R91). -/
theorem decodeWith_token {k : Codec} {bytes rest : List Byte} {i : Instr} (h : decodeWith k bytes = .token i rest) :
    ∃ c ops, bytes = c :: (ops ++ rest) ∧ ops.length = k.operandCount (k.classOf c) ∧ i = k.assemble c ops := by
  cases bytes with
  | nil => cases h
  | cons c tail =>
    simp only [decodeWith] at h
    split at h
    · cases h
    · rename_i hn
      cases h
      exact ⟨c, _, by rw [List.take_append_drop], by rw [List.length_take]; omega, rfl⟩

/-- A byte sequence that holds a whole token is read as that token. -/
theorem decodeWith_eq {k : Codec} {c : Byte} {ops : List Byte} (rest : List Byte)
    (h : ops.length = k.operandCount (k.classOf c)) :
    decodeWith k (c :: (ops ++ rest)) = .token (k.assemble c ops) rest := by
  simp only [decodeWith, ← h, List.length_append, List.take_left, List.drop_left]
  rw [if_neg (by omega)]

/-- A rejected byte sequence is empty, or an indicator byte with too few operand bytes (60 R203). -/
theorem decodeWith_truncated {k : Codec} {bytes : List Byte} {m : Missing} (h : decodeWith k bytes = .truncated m) :
    bytes = [] ∨ ∃ c ops, bytes = c :: ops ∧ ops.length < k.operandCount (k.classOf c) := by
  cases bytes with
  | nil => exact .inl rfl
  | cons c tail =>
    simp only [decodeWith] at h
    split at h
    · rename_i hn; exact .inr ⟨c, tail, rfl, hn⟩
    · cases h

/-- An indicator byte with too few operand bytes is rejected. -/
theorem decodeWith_short {k : Codec} {c : Byte} {ops : List Byte} (h : ops.length < k.operandCount (k.classOf c)) :
    decodeWith k (c :: ops) = .truncated (.operand (k.classOf c)) := by
  simp only [decodeWith, if_pos h]

/-- No fetch reads more bytes than the codec's reach. -/
theorem operandCount_reach (k : Codec) (cls : TokenClass) : 1 + k.operandCount cls ≤ k.reach := by
  cases cls <;> simp only [Codec.operandCount, Codec.reach] <;> omega

/-- What an assembled token is, by its class. -/
theorem assemble_cases (k : Codec) (c : Byte) (ops : List Byte) :
    (k.classOf c = .endToken ∧ k.assemble c ops = .endToken) ∨
    (k.classOf c = .unknown ∧ k.assemble c ops = .unk c) ∨
    (k.classOf c = .lit ∧ k.assemble c ops = .lit (k.litRun.eval c ops)) ∨
    (k.classOf c = .rpb ∧
      k.assemble c ops = .rpb (BitVec.ofNat 8 (k.rpbValue.eval c ops)) (k.rpbCount.eval c ops)) ∨
    (k.classOf c = .rpp ∧ k.assemble c ops = .rpp (k.rppDistance.eval c ops) (k.rppCount.eval c ops)) := by
  unfold Codec.assemble
  cases k.classOf c <;> simp

/-- A decoded token is a token. -/
theorem decode_isToken {k : Codec} {bytes rest : List Byte} {i : Instr} (h : decodeWith k bytes = .token i rest) :
    i.isToken = true := by
  obtain ⟨c, ops, -, -, rfl⟩ := decodeWith_token h
  rcases assemble_cases k c ops with ⟨-, e⟩ | ⟨-, e⟩ | ⟨-, e⟩ | ⟨-, e⟩ | ⟨-, e⟩ <;> rw [e] <;> rfl

/-- The fetch of a decoded token reads its indicator byte and its operand bytes (10_state R24). -/
theorem fetchLength_assemble {k : Codec} {c : Byte} {ops : List Byte} (h : ops.length = k.operandCount (k.classOf c)) :
    (k.assemble c ops).fetchLength k = 1 + ops.length := by
  rcases assemble_cases k c ops with ⟨hc, e⟩ | ⟨hc, e⟩ | ⟨hc, e⟩ | ⟨hc, e⟩ | ⟨hc, e⟩ <;>
    rw [e, h, hc] <;> rfl

/-- The four commands a request can ask for (30_encoding R103). -/
theorem decodeRequest_cases (r : Request) :
    decodeRequest r = .dbuf r.args ∨ decodeRequest r = .dbkg r.args ∨ decodeRequest r = .dwin r.args ∨
      decodeRequest r = .dspr r.args := by
  unfold decodeRequest
  repeat' split
  all_goals simp

end Sys2Proof
end

