-- ==== Sys2Proof/Laws/State.lean ====
section
/-!
SUPPORT. One lemma per field per update of the state.
-/
namespace Sys2Proof.Machine

/-! ### Views -/

@[simp] theorem State.n_eq (s : State) : s.n = s.hist.length := rfl
@[simp] theorem State.srcLen_eq (s : State) : s.srcLen = s.src.length := rfl

/-! ### `raise` -/

@[simp] theorem State.raise_cfg (s : State) (e : StreamError) :
    (s.raise e).cfg = s.cfg := rfl
@[simp] theorem State.raise_host (s : State) (e : StreamError) :
    (s.raise e).host = s.host := rfl
@[simp] theorem State.raise_oracle (s : State) (e : StreamError) :
    (s.raise e).oracle = s.oracle := rfl
@[simp] theorem State.raise_slots (s : State) (e : StreamError) :
    (s.raise e).slots = s.slots := rfl
@[simp] theorem State.raise_draws (s : State) (e : StreamError) :
    (s.raise e).draws = s.draws := rfl
@[simp] theorem State.raise_src (s : State) (e : StreamError) :
    (s.raise e).src = s.src := rfl
@[simp] theorem State.raise_srcBase (s : State) (e : StreamError) :
    (s.raise e).srcBase = s.srcBase := rfl
@[simp] theorem State.raise_cmd (s : State) (e : StreamError) :
    (s.raise e).cmd = s.cmd := rfl
@[simp] theorem State.raise_dst0 (s : State) (e : StreamError) :
    (s.raise e).dst0 = s.dst0 := rfl
@[simp] theorem State.raise_tile0 (s : State) (e : StreamError) :
    (s.raise e).tile0 = s.tile0 := rfl
@[simp] theorem State.raise_sc (s : State) (e : StreamError) :
    (s.raise e).sc = s.sc := rfl
@[simp] theorem State.raise_tk (s : State) (e : StreamError) :
    (s.raise e).tk = s.tk := rfl
@[simp] theorem State.raise_rem (s : State) (e : StreamError) :
    (s.raise e).rem = s.rem := rfl
@[simp] theorem State.raise_val (s : State) (e : StreamError) :
    (s.raise e).val = s.val := rfl
@[simp] theorem State.raise_off (s : State) (e : StreamError) :
    (s.raise e).off = s.off := rfl
@[simp] theorem State.raise_hist (s : State) (e : StreamError) :
    (s.raise e).hist = s.hist := rfl
@[simp] theorem State.raise_dstat (s : State) (e : StreamError) :
    (s.raise e).dstat = .error e := rfl
@[simp] theorem State.raise_ws (s : State) (e : StreamError) :
    (s.raise e).ws = s.ws := rfl
@[simp] theorem State.raise_pend (s : State) (e : StreamError) :
    (s.raise e).pend = s.pend := rfl
@[simp] theorem State.raise_dk (s : State) (e : StreamError) :
    (s.raise e).dk = s.dk := rfl
@[simp] theorem State.raise_ti (s : State) (e : StreamError) :
    (s.raise e).ti = s.ti := rfl
@[simp] theorem State.raise_bo (s : State) (e : StreamError) :
    (s.raise e).bo = s.bo := rfl
@[simp] theorem State.raise_wn (s : State) (e : StreamError) :
    (s.raise e).wn = s.wn := rfl
@[simp] theorem State.raise_status (s : State) (e : StreamError) :
    (s.raise e).status = s.status := rfl
@[simp] theorem State.raise_mem (s : State) (e : StreamError) :
    (s.raise e).mem = s.mem := rfl
@[simp] theorem State.raise_trace (s : State) (e : StreamError) :
    (s.raise e).trace = s.trace := rfl

/-! ### `consume` -/

@[simp] theorem State.consume_cfg (s : State) (k : Nat) :
    (s.consume k).cfg = s.cfg := rfl
@[simp] theorem State.consume_host (s : State) (k : Nat) :
    (s.consume k).host = s.host := rfl
@[simp] theorem State.consume_oracle (s : State) (k : Nat) :
    (s.consume k).oracle = s.oracle := rfl
@[simp] theorem State.consume_slots (s : State) (k : Nat) :
    (s.consume k).slots = s.slots := rfl
@[simp] theorem State.consume_draws (s : State) (k : Nat) :
    (s.consume k).draws = s.draws := rfl
@[simp] theorem State.consume_src (s : State) (k : Nat) :
    (s.consume k).src = s.src := rfl
@[simp] theorem State.consume_srcBase (s : State) (k : Nat) :
    (s.consume k).srcBase = s.srcBase := rfl
@[simp] theorem State.consume_cmd (s : State) (k : Nat) :
    (s.consume k).cmd = s.cmd := rfl
@[simp] theorem State.consume_dst0 (s : State) (k : Nat) :
    (s.consume k).dst0 = s.dst0 := rfl
@[simp] theorem State.consume_tile0 (s : State) (k : Nat) :
    (s.consume k).tile0 = s.tile0 := rfl
@[simp] theorem State.consume_sc (s : State) (k : Nat) :
    (s.consume k).sc = s.sc + k := rfl
@[simp] theorem State.consume_tk (s : State) (k : Nat) :
    (s.consume k).tk = s.tk := rfl
@[simp] theorem State.consume_rem (s : State) (k : Nat) :
    (s.consume k).rem = s.rem := rfl
@[simp] theorem State.consume_val (s : State) (k : Nat) :
    (s.consume k).val = s.val := rfl
@[simp] theorem State.consume_off (s : State) (k : Nat) :
    (s.consume k).off = s.off := rfl
@[simp] theorem State.consume_hist (s : State) (k : Nat) :
    (s.consume k).hist = s.hist := rfl
@[simp] theorem State.consume_dstat (s : State) (k : Nat) :
    (s.consume k).dstat = s.dstat := rfl
@[simp] theorem State.consume_ws (s : State) (k : Nat) :
    (s.consume k).ws = s.ws := rfl
@[simp] theorem State.consume_pend (s : State) (k : Nat) :
    (s.consume k).pend = s.pend := rfl
@[simp] theorem State.consume_dk (s : State) (k : Nat) :
    (s.consume k).dk = s.dk := rfl
@[simp] theorem State.consume_ti (s : State) (k : Nat) :
    (s.consume k).ti = s.ti := rfl
@[simp] theorem State.consume_bo (s : State) (k : Nat) :
    (s.consume k).bo = s.bo := rfl
@[simp] theorem State.consume_wn (s : State) (k : Nat) :
    (s.consume k).wn = s.wn := rfl
@[simp] theorem State.consume_status (s : State) (k : Nat) :
    (s.consume k).status = s.status := rfl
@[simp] theorem State.consume_mem (s : State) (k : Nat) :
    (s.consume k).mem = s.mem := rfl
@[simp] theorem State.consume_trace (s : State) (k : Nat) :
    (s.consume k).trace = s.trace := rfl

/-! ### `appendByte` -/

@[simp] theorem State.appendByte_cfg (s : State) (b : Byte) :
    (s.appendByte b).cfg = s.cfg := rfl
@[simp] theorem State.appendByte_host (s : State) (b : Byte) :
    (s.appendByte b).host = s.host := rfl
@[simp] theorem State.appendByte_oracle (s : State) (b : Byte) :
    (s.appendByte b).oracle = s.oracle := rfl
@[simp] theorem State.appendByte_slots (s : State) (b : Byte) :
    (s.appendByte b).slots = s.slots := rfl
@[simp] theorem State.appendByte_draws (s : State) (b : Byte) :
    (s.appendByte b).draws = s.draws := rfl
@[simp] theorem State.appendByte_src (s : State) (b : Byte) :
    (s.appendByte b).src = s.src := rfl
@[simp] theorem State.appendByte_srcBase (s : State) (b : Byte) :
    (s.appendByte b).srcBase = s.srcBase := rfl
@[simp] theorem State.appendByte_cmd (s : State) (b : Byte) :
    (s.appendByte b).cmd = s.cmd := rfl
@[simp] theorem State.appendByte_dst0 (s : State) (b : Byte) :
    (s.appendByte b).dst0 = s.dst0 := rfl
@[simp] theorem State.appendByte_tile0 (s : State) (b : Byte) :
    (s.appendByte b).tile0 = s.tile0 := rfl
@[simp] theorem State.appendByte_sc (s : State) (b : Byte) :
    (s.appendByte b).sc = s.sc := rfl
@[simp] theorem State.appendByte_tk (s : State) (b : Byte) :
    (s.appendByte b).tk = s.tk := rfl
@[simp] theorem State.appendByte_rem (s : State) (b : Byte) :
    (s.appendByte b).rem = s.rem - 1 := rfl
@[simp] theorem State.appendByte_val (s : State) (b : Byte) :
    (s.appendByte b).val = s.val := rfl
@[simp] theorem State.appendByte_off (s : State) (b : Byte) :
    (s.appendByte b).off = s.off := rfl
@[simp] theorem State.appendByte_hist (s : State) (b : Byte) :
    (s.appendByte b).hist = s.hist ++ [b] := rfl
@[simp] theorem State.appendByte_dstat (s : State) (b : Byte) :
    (s.appendByte b).dstat = s.dstat := rfl
@[simp] theorem State.appendByte_ws (s : State) (b : Byte) :
    (s.appendByte b).ws = s.ws := rfl
@[simp] theorem State.appendByte_pend (s : State) (b : Byte) :
    (s.appendByte b).pend = s.pend := rfl
@[simp] theorem State.appendByte_dk (s : State) (b : Byte) :
    (s.appendByte b).dk = s.dk := rfl
@[simp] theorem State.appendByte_ti (s : State) (b : Byte) :
    (s.appendByte b).ti = s.ti := rfl
@[simp] theorem State.appendByte_bo (s : State) (b : Byte) :
    (s.appendByte b).bo = s.bo := rfl
@[simp] theorem State.appendByte_wn (s : State) (b : Byte) :
    (s.appendByte b).wn = s.wn := rfl
@[simp] theorem State.appendByte_status (s : State) (b : Byte) :
    (s.appendByte b).status = s.status := rfl
@[simp] theorem State.appendByte_mem (s : State) (b : Byte) :
    (s.appendByte b).mem = s.mem := rfl
@[simp] theorem State.appendByte_trace (s : State) (b : Byte) :
    (s.appendByte b).trace = s.trace := rfl

/-! ### `endCommand` -/

@[simp] theorem State.endCommand_cfg (s : State) (st : Status) :
    (s.endCommand st).cfg = s.cfg := rfl
@[simp] theorem State.endCommand_host (s : State) (st : Status) :
    (s.endCommand st).host = s.host := rfl
@[simp] theorem State.endCommand_oracle (s : State) (st : Status) :
    (s.endCommand st).oracle = s.oracle := rfl
@[simp] theorem State.endCommand_slots (s : State) (st : Status) :
    (s.endCommand st).slots = s.slots := rfl
@[simp] theorem State.endCommand_draws (s : State) (st : Status) :
    (s.endCommand st).draws = s.draws := rfl
@[simp] theorem State.endCommand_src (s : State) (st : Status) :
    (s.endCommand st).src = s.src := rfl
@[simp] theorem State.endCommand_srcBase (s : State) (st : Status) :
    (s.endCommand st).srcBase = s.srcBase := rfl
@[simp] theorem State.endCommand_cmd (s : State) (st : Status) :
    (s.endCommand st).cmd = s.cmd := rfl
@[simp] theorem State.endCommand_dst0 (s : State) (st : Status) :
    (s.endCommand st).dst0 = s.dst0 := rfl
@[simp] theorem State.endCommand_tile0 (s : State) (st : Status) :
    (s.endCommand st).tile0 = s.tile0 := rfl
@[simp] theorem State.endCommand_sc (s : State) (st : Status) :
    (s.endCommand st).sc = s.sc := rfl
@[simp] theorem State.endCommand_tk (s : State) (st : Status) :
    (s.endCommand st).tk = s.tk := rfl
@[simp] theorem State.endCommand_rem (s : State) (st : Status) :
    (s.endCommand st).rem = s.rem := rfl
@[simp] theorem State.endCommand_val (s : State) (st : Status) :
    (s.endCommand st).val = s.val := rfl
@[simp] theorem State.endCommand_off (s : State) (st : Status) :
    (s.endCommand st).off = s.off := rfl
@[simp] theorem State.endCommand_hist (s : State) (st : Status) :
    (s.endCommand st).hist = s.hist := rfl
@[simp] theorem State.endCommand_dstat (s : State) (st : Status) :
    (s.endCommand st).dstat = s.dstat := rfl
@[simp] theorem State.endCommand_ws (s : State) (st : Status) :
    (s.endCommand st).ws = .done := rfl
@[simp] theorem State.endCommand_pend (s : State) (st : Status) :
    (s.endCommand st).pend = s.pend := rfl
@[simp] theorem State.endCommand_dk (s : State) (st : Status) :
    (s.endCommand st).dk = s.dk := rfl
@[simp] theorem State.endCommand_ti (s : State) (st : Status) :
    (s.endCommand st).ti = s.ti := rfl
@[simp] theorem State.endCommand_bo (s : State) (st : Status) :
    (s.endCommand st).bo = s.bo := rfl
@[simp] theorem State.endCommand_wn (s : State) (st : Status) :
    (s.endCommand st).wn = s.wn := rfl
@[simp] theorem State.endCommand_status (s : State) (st : Status) :
    (s.endCommand st).status = st := rfl
@[simp] theorem State.endCommand_mem (s : State) (st : Status) :
    (s.endCommand st).mem = s.mem := rfl
@[simp] theorem State.endCommand_trace (s : State) (st : Status) :
    (s.endCommand st).trace = s.trace := rfl

/-! ### `afterQuery` -/

@[simp] theorem State.afterQuery_cfg (s : State) :
    (s.afterQuery).cfg = s.cfg := rfl
@[simp] theorem State.afterQuery_host (s : State) :
    (s.afterQuery).host = s.host := rfl
@[simp] theorem State.afterQuery_oracle (s : State) :
    (s.afterQuery).oracle = s.oracle.tail := rfl
@[simp] theorem State.afterQuery_slots (s : State) :
    (s.afterQuery).slots = s.slots + 1 := rfl
@[simp] theorem State.afterQuery_draws (s : State) :
    (s.afterQuery).draws = s.draws := rfl
@[simp] theorem State.afterQuery_src (s : State) :
    (s.afterQuery).src = s.src := rfl
@[simp] theorem State.afterQuery_srcBase (s : State) :
    (s.afterQuery).srcBase = s.srcBase := rfl
@[simp] theorem State.afterQuery_cmd (s : State) :
    (s.afterQuery).cmd = s.cmd := rfl
@[simp] theorem State.afterQuery_dst0 (s : State) :
    (s.afterQuery).dst0 = s.dst0 := rfl
@[simp] theorem State.afterQuery_tile0 (s : State) :
    (s.afterQuery).tile0 = s.tile0 := rfl
@[simp] theorem State.afterQuery_sc (s : State) :
    (s.afterQuery).sc = s.sc := rfl
@[simp] theorem State.afterQuery_tk (s : State) :
    (s.afterQuery).tk = s.tk := rfl
@[simp] theorem State.afterQuery_rem (s : State) :
    (s.afterQuery).rem = s.rem := rfl
@[simp] theorem State.afterQuery_val (s : State) :
    (s.afterQuery).val = s.val := rfl
@[simp] theorem State.afterQuery_off (s : State) :
    (s.afterQuery).off = s.off := rfl
@[simp] theorem State.afterQuery_hist (s : State) :
    (s.afterQuery).hist = s.hist := rfl
@[simp] theorem State.afterQuery_dstat (s : State) :
    (s.afterQuery).dstat = s.dstat := rfl
@[simp] theorem State.afterQuery_ws (s : State) :
    (s.afterQuery).ws = s.ws := rfl
@[simp] theorem State.afterQuery_pend (s : State) :
    (s.afterQuery).pend = s.pend := rfl
@[simp] theorem State.afterQuery_dk (s : State) :
    (s.afterQuery).dk = s.dk := rfl
@[simp] theorem State.afterQuery_ti (s : State) :
    (s.afterQuery).ti = s.ti := rfl
@[simp] theorem State.afterQuery_bo (s : State) :
    (s.afterQuery).bo = s.bo := rfl
@[simp] theorem State.afterQuery_wn (s : State) :
    (s.afterQuery).wn = s.wn := rfl
@[simp] theorem State.afterQuery_status (s : State) :
    (s.afterQuery).status = s.status := rfl
@[simp] theorem State.afterQuery_mem (s : State) :
    (s.afterQuery).mem = s.mem := rfl
@[simp] theorem State.afterQuery_trace (s : State) :
    (s.afterQuery).trace = s.trace := rfl

/-! ### `memWrite` -/

@[simp] theorem State.memWrite_cfg (s : State) (a : Nat) (v : Byte) (m : Option Mode) :
    (s.memWrite a v m).cfg = s.cfg := rfl
@[simp] theorem State.memWrite_host (s : State) (a : Nat) (v : Byte) (m : Option Mode) :
    (s.memWrite a v m).host = s.host := rfl
@[simp] theorem State.memWrite_oracle (s : State) (a : Nat) (v : Byte) (m : Option Mode) :
    (s.memWrite a v m).oracle = s.oracle := rfl
@[simp] theorem State.memWrite_slots (s : State) (a : Nat) (v : Byte) (m : Option Mode) :
    (s.memWrite a v m).slots = s.slots := rfl
@[simp] theorem State.memWrite_draws (s : State) (a : Nat) (v : Byte) (m : Option Mode) :
    (s.memWrite a v m).draws = s.draws := rfl
@[simp] theorem State.memWrite_src (s : State) (a : Nat) (v : Byte) (m : Option Mode) :
    (s.memWrite a v m).src = s.src := rfl
@[simp] theorem State.memWrite_srcBase (s : State) (a : Nat) (v : Byte) (m : Option Mode) :
    (s.memWrite a v m).srcBase = s.srcBase := rfl
@[simp] theorem State.memWrite_cmd (s : State) (a : Nat) (v : Byte) (m : Option Mode) :
    (s.memWrite a v m).cmd = s.cmd := rfl
@[simp] theorem State.memWrite_dst0 (s : State) (a : Nat) (v : Byte) (m : Option Mode) :
    (s.memWrite a v m).dst0 = s.dst0 := rfl
@[simp] theorem State.memWrite_tile0 (s : State) (a : Nat) (v : Byte) (m : Option Mode) :
    (s.memWrite a v m).tile0 = s.tile0 := rfl
@[simp] theorem State.memWrite_sc (s : State) (a : Nat) (v : Byte) (m : Option Mode) :
    (s.memWrite a v m).sc = s.sc := rfl
@[simp] theorem State.memWrite_tk (s : State) (a : Nat) (v : Byte) (m : Option Mode) :
    (s.memWrite a v m).tk = s.tk := rfl
@[simp] theorem State.memWrite_rem (s : State) (a : Nat) (v : Byte) (m : Option Mode) :
    (s.memWrite a v m).rem = s.rem := rfl
@[simp] theorem State.memWrite_val (s : State) (a : Nat) (v : Byte) (m : Option Mode) :
    (s.memWrite a v m).val = s.val := rfl
@[simp] theorem State.memWrite_off (s : State) (a : Nat) (v : Byte) (m : Option Mode) :
    (s.memWrite a v m).off = s.off := rfl
@[simp] theorem State.memWrite_hist (s : State) (a : Nat) (v : Byte) (m : Option Mode) :
    (s.memWrite a v m).hist = s.hist := rfl
@[simp] theorem State.memWrite_dstat (s : State) (a : Nat) (v : Byte) (m : Option Mode) :
    (s.memWrite a v m).dstat = s.dstat := rfl
@[simp] theorem State.memWrite_ws (s : State) (a : Nat) (v : Byte) (m : Option Mode) :
    (s.memWrite a v m).ws = s.ws := rfl
@[simp] theorem State.memWrite_pend (s : State) (a : Nat) (v : Byte) (m : Option Mode) :
    (s.memWrite a v m).pend = s.pend := rfl
@[simp] theorem State.memWrite_dk (s : State) (a : Nat) (v : Byte) (m : Option Mode) :
    (s.memWrite a v m).dk = s.dk := rfl
@[simp] theorem State.memWrite_ti (s : State) (a : Nat) (v : Byte) (m : Option Mode) :
    (s.memWrite a v m).ti = s.ti := rfl
@[simp] theorem State.memWrite_bo (s : State) (a : Nat) (v : Byte) (m : Option Mode) :
    (s.memWrite a v m).bo = s.bo := rfl
@[simp] theorem State.memWrite_wn (s : State) (a : Nat) (v : Byte) (m : Option Mode) :
    (s.memWrite a v m).wn = s.wn := rfl
@[simp] theorem State.memWrite_status (s : State) (a : Nat) (v : Byte) (m : Option Mode) :
    (s.memWrite a v m).status = s.status := rfl
@[simp] theorem State.memWrite_mem (s : State) (a : Nat) (v : Byte) (m : Option Mode) :
    (s.memWrite a v m).mem = s.mem.write a v := rfl
@[simp] theorem State.memWrite_trace (s : State) (a : Nat) (v : Byte) (m : Option Mode) :
    (s.memWrite a v m).trace = s.trace ++ [⟨a, v, m⟩] := rfl

/-! ### `memWriteUngated` -/

@[simp] theorem State.memWriteUngated_cfg (s : State) (a : Nat) (v : Byte) :
    (s.memWriteUngated a v).cfg = s.cfg := rfl
@[simp] theorem State.memWriteUngated_host (s : State) (a : Nat) (v : Byte) :
    (s.memWriteUngated a v).host = s.host := rfl
@[simp] theorem State.memWriteUngated_oracle (s : State) (a : Nat) (v : Byte) :
    (s.memWriteUngated a v).oracle = s.oracle := rfl
@[simp] theorem State.memWriteUngated_slots (s : State) (a : Nat) (v : Byte) :
    (s.memWriteUngated a v).slots = s.slots := rfl
@[simp] theorem State.memWriteUngated_draws (s : State) (a : Nat) (v : Byte) :
    (s.memWriteUngated a v).draws = s.draws + 1 := rfl
@[simp] theorem State.memWriteUngated_src (s : State) (a : Nat) (v : Byte) :
    (s.memWriteUngated a v).src = s.src := rfl
@[simp] theorem State.memWriteUngated_srcBase (s : State) (a : Nat) (v : Byte) :
    (s.memWriteUngated a v).srcBase = s.srcBase := rfl
@[simp] theorem State.memWriteUngated_cmd (s : State) (a : Nat) (v : Byte) :
    (s.memWriteUngated a v).cmd = s.cmd := rfl
@[simp] theorem State.memWriteUngated_dst0 (s : State) (a : Nat) (v : Byte) :
    (s.memWriteUngated a v).dst0 = s.dst0 := rfl
@[simp] theorem State.memWriteUngated_tile0 (s : State) (a : Nat) (v : Byte) :
    (s.memWriteUngated a v).tile0 = s.tile0 := rfl
@[simp] theorem State.memWriteUngated_sc (s : State) (a : Nat) (v : Byte) :
    (s.memWriteUngated a v).sc = s.sc := rfl
@[simp] theorem State.memWriteUngated_tk (s : State) (a : Nat) (v : Byte) :
    (s.memWriteUngated a v).tk = s.tk := rfl
@[simp] theorem State.memWriteUngated_rem (s : State) (a : Nat) (v : Byte) :
    (s.memWriteUngated a v).rem = s.rem := rfl
@[simp] theorem State.memWriteUngated_val (s : State) (a : Nat) (v : Byte) :
    (s.memWriteUngated a v).val = s.val := rfl
@[simp] theorem State.memWriteUngated_off (s : State) (a : Nat) (v : Byte) :
    (s.memWriteUngated a v).off = s.off := rfl
@[simp] theorem State.memWriteUngated_hist (s : State) (a : Nat) (v : Byte) :
    (s.memWriteUngated a v).hist = s.hist := rfl
@[simp] theorem State.memWriteUngated_dstat (s : State) (a : Nat) (v : Byte) :
    (s.memWriteUngated a v).dstat = s.dstat := rfl
@[simp] theorem State.memWriteUngated_ws (s : State) (a : Nat) (v : Byte) :
    (s.memWriteUngated a v).ws = s.ws := rfl
@[simp] theorem State.memWriteUngated_pend (s : State) (a : Nat) (v : Byte) :
    (s.memWriteUngated a v).pend = s.pend := rfl
@[simp] theorem State.memWriteUngated_dk (s : State) (a : Nat) (v : Byte) :
    (s.memWriteUngated a v).dk = s.dk := rfl
@[simp] theorem State.memWriteUngated_ti (s : State) (a : Nat) (v : Byte) :
    (s.memWriteUngated a v).ti = s.ti := rfl
@[simp] theorem State.memWriteUngated_bo (s : State) (a : Nat) (v : Byte) :
    (s.memWriteUngated a v).bo = s.bo := rfl
@[simp] theorem State.memWriteUngated_wn (s : State) (a : Nat) (v : Byte) :
    (s.memWriteUngated a v).wn = s.wn := rfl
@[simp] theorem State.memWriteUngated_status (s : State) (a : Nat) (v : Byte) :
    (s.memWriteUngated a v).status = s.status := rfl
@[simp] theorem State.memWriteUngated_mem (s : State) (a : Nat) (v : Byte) :
    (s.memWriteUngated a v).mem = s.mem.write a (if s.disturbed a then Config.freeByte s.draws else v) := rfl
@[simp] theorem State.memWriteUngated_trace (s : State) (a : Nat) (v : Byte) :
    (s.memWriteUngated a v).trace = s.trace ++ [⟨a, v, none⟩] := rfl

/-! ### `startWith` -/

@[simp] theorem State.startWith_cfg (s : State) (c : BitVec 2) (dk : DestKind) (a : CmdArgs) :
    (s.startWith c dk a).cfg = s.cfg := rfl
@[simp] theorem State.startWith_host (s : State) (c : BitVec 2) (dk : DestKind) (a : CmdArgs) :
    (s.startWith c dk a).host = s.host := rfl
@[simp] theorem State.startWith_oracle (s : State) (c : BitVec 2) (dk : DestKind) (a : CmdArgs) :
    (s.startWith c dk a).oracle = s.oracle := rfl
@[simp] theorem State.startWith_slots (s : State) (c : BitVec 2) (dk : DestKind) (a : CmdArgs) :
    (s.startWith c dk a).slots = s.slots := rfl
@[simp] theorem State.startWith_draws (s : State) (c : BitVec 2) (dk : DestKind) (a : CmdArgs) :
    (s.startWith c dk a).draws = s.draws + 3 := rfl
@[simp] theorem State.startWith_src (s : State) (c : BitVec 2) (dk : DestKind) (a : CmdArgs) :
    (s.startWith c dk a).src = a.src := rfl
@[simp] theorem State.startWith_srcBase (s : State) (c : BitVec 2) (dk : DestKind) (a : CmdArgs) :
    (s.startWith c dk a).srcBase = a.srcBase := rfl
@[simp] theorem State.startWith_cmd (s : State) (c : BitVec 2) (dk : DestKind) (a : CmdArgs) :
    (s.startWith c dk a).cmd = c := rfl
@[simp] theorem State.startWith_dst0 (s : State) (c : BitVec 2) (dk : DestKind) (a : CmdArgs) :
    (s.startWith c dk a).dst0 = a.dst0 := rfl
@[simp] theorem State.startWith_tile0 (s : State) (c : BitVec 2) (dk : DestKind) (a : CmdArgs) :
    (s.startWith c dk a).tile0 = a.tile0 := rfl
@[simp] theorem State.startWith_sc (s : State) (c : BitVec 2) (dk : DestKind) (a : CmdArgs) :
    (s.startWith c dk a).sc = 0 := rfl
@[simp] theorem State.startWith_tk (s : State) (c : BitVec 2) (dk : DestKind) (a : CmdArgs) :
    (s.startWith c dk a).tk = .none := rfl
@[simp] theorem State.startWith_rem (s : State) (c : BitVec 2) (dk : DestKind) (a : CmdArgs) :
    (s.startWith c dk a).rem = 0 := rfl
@[simp] theorem State.startWith_val (s : State) (c : BitVec 2) (dk : DestKind) (a : CmdArgs) :
    (s.startWith c dk a).val = Config.freeByte s.draws := rfl
@[simp] theorem State.startWith_off (s : State) (c : BitVec 2) (dk : DestKind) (a : CmdArgs) :
    (s.startWith c dk a).off = Config.freeNat s.draws % s.cfg.codec.maxOffset + 1 := rfl
@[simp] theorem State.startWith_hist (s : State) (c : BitVec 2) (dk : DestKind) (a : CmdArgs) :
    (s.startWith c dk a).hist = [] := rfl
@[simp] theorem State.startWith_dstat (s : State) (c : BitVec 2) (dk : DestKind) (a : CmdArgs) :
    (s.startWith c dk a).dstat = .run := rfl
@[simp] theorem State.startWith_ws (s : State) (c : BitVec 2) (dk : DestKind) (a : CmdArgs) :
    (s.startWith c dk a).ws = .pull := rfl
@[simp] theorem State.startWith_pend (s : State) (c : BitVec 2) (dk : DestKind) (a : CmdArgs) :
    (s.startWith c dk a).pend = Config.freeByte (s.draws + 1) := rfl
@[simp] theorem State.startWith_dk (s : State) (c : BitVec 2) (dk : DestKind) (a : CmdArgs) :
    (s.startWith c dk a).dk = dk := rfl
@[simp] theorem State.startWith_wn (s : State) (c : BitVec 2) (dk : DestKind) (a : CmdArgs) :
    (s.startWith c dk a).wn = 0 := rfl
@[simp] theorem State.startWith_status (s : State) (c : BitVec 2) (dk : DestKind) (a : CmdArgs) :
    (s.startWith c dk a).status = .busy := rfl
@[simp] theorem State.startWith_mem (s : State) (c : BitVec 2) (dk : DestKind) (a : CmdArgs) :
    (s.startWith c dk a).mem = s.mem := rfl
@[simp] theorem State.startWith_trace (s : State) (c : BitVec 2) (dk : DestKind) (a : CmdArgs) :
    (s.startWith c dk a).trace = [] := rfl

/-! ### `advanceTile` -/

@[simp] theorem State.advanceTile_cfg (s : State) (t : TileTable) :
    (s.advanceTile t).cfg = s.cfg := rfl
@[simp] theorem State.advanceTile_host (s : State) (t : TileTable) :
    (s.advanceTile t).host = s.host := rfl
@[simp] theorem State.advanceTile_oracle (s : State) (t : TileTable) :
    (s.advanceTile t).oracle = s.oracle := rfl
@[simp] theorem State.advanceTile_slots (s : State) (t : TileTable) :
    (s.advanceTile t).slots = s.slots := rfl
@[simp] theorem State.advanceTile_draws (s : State) (t : TileTable) :
    (s.advanceTile t).draws = s.draws := rfl
@[simp] theorem State.advanceTile_src (s : State) (t : TileTable) :
    (s.advanceTile t).src = s.src := rfl
@[simp] theorem State.advanceTile_srcBase (s : State) (t : TileTable) :
    (s.advanceTile t).srcBase = s.srcBase := rfl
@[simp] theorem State.advanceTile_cmd (s : State) (t : TileTable) :
    (s.advanceTile t).cmd = s.cmd := rfl
@[simp] theorem State.advanceTile_dst0 (s : State) (t : TileTable) :
    (s.advanceTile t).dst0 = s.dst0 := rfl
@[simp] theorem State.advanceTile_tile0 (s : State) (t : TileTable) :
    (s.advanceTile t).tile0 = s.tile0 := rfl
@[simp] theorem State.advanceTile_sc (s : State) (t : TileTable) :
    (s.advanceTile t).sc = s.sc := rfl
@[simp] theorem State.advanceTile_tk (s : State) (t : TileTable) :
    (s.advanceTile t).tk = s.tk := rfl
@[simp] theorem State.advanceTile_rem (s : State) (t : TileTable) :
    (s.advanceTile t).rem = s.rem := rfl
@[simp] theorem State.advanceTile_val (s : State) (t : TileTable) :
    (s.advanceTile t).val = s.val := rfl
@[simp] theorem State.advanceTile_off (s : State) (t : TileTable) :
    (s.advanceTile t).off = s.off := rfl
@[simp] theorem State.advanceTile_hist (s : State) (t : TileTable) :
    (s.advanceTile t).hist = s.hist := rfl
@[simp] theorem State.advanceTile_dstat (s : State) (t : TileTable) :
    (s.advanceTile t).dstat = s.dstat := rfl
@[simp] theorem State.advanceTile_ws (s : State) (t : TileTable) :
    (s.advanceTile t).ws = s.ws := rfl
@[simp] theorem State.advanceTile_pend (s : State) (t : TileTable) :
    (s.advanceTile t).pend = s.pend := rfl
@[simp] theorem State.advanceTile_dk (s : State) (t : TileTable) :
    (s.advanceTile t).dk = s.dk := rfl
@[simp] theorem State.advanceTile_ti (s : State) (t : TileTable) :
    (s.advanceTile t).ti = if s.bo + 1 = (s.cfg.table t).tileBytes then s.ti + 1 else s.ti := rfl
@[simp] theorem State.advanceTile_bo (s : State) (t : TileTable) :
    (s.advanceTile t).bo = if s.bo + 1 = (s.cfg.table t).tileBytes then 0 else s.bo + 1 := rfl
@[simp] theorem State.advanceTile_wn (s : State) (t : TileTable) :
    (s.advanceTile t).wn = s.wn + 1 := rfl
@[simp] theorem State.advanceTile_status (s : State) (t : TileTable) :
    (s.advanceTile t).status = s.status := rfl
@[simp] theorem State.advanceTile_mem (s : State) (t : TileTable) :
    (s.advanceTile t).mem = s.mem := rfl
@[simp] theorem State.advanceTile_trace (s : State) (t : TileTable) :
    (s.advanceTile t).trace = s.trace := rfl

/-! ### `resetBlock` -/

@[simp] theorem State.resetBlock_cfg (s : State) :
    (s.resetBlock).cfg = s.cfg := rfl
@[simp] theorem State.resetBlock_host (s : State) :
    (s.resetBlock).host = s.host := rfl
@[simp] theorem State.resetBlock_oracle (s : State) :
    (s.resetBlock).oracle = s.oracle := rfl
@[simp] theorem State.resetBlock_slots (s : State) :
    (s.resetBlock).slots = s.slots := rfl
@[simp] theorem State.resetBlock_draws (s : State) :
    (s.resetBlock).draws = s.draws := rfl
@[simp] theorem State.resetBlock_src (s : State) :
    (s.resetBlock).src = State.reset.src := rfl
@[simp] theorem State.resetBlock_srcBase (s : State) :
    (s.resetBlock).srcBase = State.reset.srcBase := rfl
@[simp] theorem State.resetBlock_cmd (s : State) :
    (s.resetBlock).cmd = State.reset.cmd := rfl
@[simp] theorem State.resetBlock_dst0 (s : State) :
    (s.resetBlock).dst0 = State.reset.dst0 := rfl
@[simp] theorem State.resetBlock_tile0 (s : State) :
    (s.resetBlock).tile0 = State.reset.tile0 := rfl
@[simp] theorem State.resetBlock_sc (s : State) :
    (s.resetBlock).sc = State.reset.sc := rfl
@[simp] theorem State.resetBlock_tk (s : State) :
    (s.resetBlock).tk = State.reset.tk := rfl
@[simp] theorem State.resetBlock_rem (s : State) :
    (s.resetBlock).rem = State.reset.rem := rfl
@[simp] theorem State.resetBlock_val (s : State) :
    (s.resetBlock).val = State.reset.val := rfl
@[simp] theorem State.resetBlock_off (s : State) :
    (s.resetBlock).off = State.reset.off := rfl
@[simp] theorem State.resetBlock_hist (s : State) :
    (s.resetBlock).hist = State.reset.hist := rfl
@[simp] theorem State.resetBlock_dstat (s : State) :
    (s.resetBlock).dstat = State.reset.dstat := rfl
@[simp] theorem State.resetBlock_ws (s : State) :
    (s.resetBlock).ws = State.reset.ws := rfl
@[simp] theorem State.resetBlock_pend (s : State) :
    (s.resetBlock).pend = State.reset.pend := rfl
@[simp] theorem State.resetBlock_dk (s : State) :
    (s.resetBlock).dk = State.reset.dk := rfl
@[simp] theorem State.resetBlock_ti (s : State) :
    (s.resetBlock).ti = State.reset.ti := rfl
@[simp] theorem State.resetBlock_bo (s : State) :
    (s.resetBlock).bo = State.reset.bo := rfl
@[simp] theorem State.resetBlock_wn (s : State) :
    (s.resetBlock).wn = State.reset.wn := rfl
@[simp] theorem State.resetBlock_status (s : State) :
    (s.resetBlock).status = State.reset.status := rfl
@[simp] theorem State.resetBlock_mem (s : State) :
    (s.resetBlock).mem = s.mem := rfl
@[simp] theorem State.resetBlock_trace (s : State) :
    (s.resetBlock).trace = State.reset.trace := rfl

@[simp] theorem State.startWith_ti_tiles (s : State) (c : BitVec 2) (t : TileTable) (a : CmdArgs) :
    (s.startWith c (.tiles t) a).ti = a.tile0 := rfl
@[simp] theorem State.startWith_bo_tiles (s : State) (c : BitVec 2) (t : TileTable) (a : CmdArgs) :
    (s.startWith c (.tiles t) a).bo = 0 := rfl

end Sys2Proof.Machine
end

