-- ==== Sys2Proof/Laws/Decoder.lean ====
section
/-!
SUPPORT. What one call of `decodeNext` and one pull step can do (40 R120, R123; 41 R168).
-/
namespace Sys2Proof.Machine

/-- A history read that is defined finds its byte (20_memory R64). -/
theorem State.histBack_isSome {s : State} {o : Nat} (h1 : 1 ≤ o) (h2 : o ≤ s.n) :
    ∃ b, s.histBack o = some b ∧ s.hist[s.n - o]? = some b := by
  have hlt : s.n - o < s.hist.length := by simp only [State.n] at *; omega
  exact ⟨s.hist[s.n - o], by simp [State.histBack, h1, h2, hlt], by simp [hlt]⟩

theorem State.histBack_eq_some {s : State} {o : Nat} {b : Byte} (h : s.histBack o = some b) :
    1 ≤ o ∧ o ≤ s.n ∧ s.hist[s.n - o]? = some b := by
  unfold State.histBack at h
  split at h
  · exact ⟨‹_ ∧ _›.1, ‹_ ∧ _›.2, h⟩
  · cases h

/-- What `ProduceByte` can answer: the value, a byte of the history, a byte of the stream, the stream's end inside a
literal, or nothing the rules define (40 R123). -/
theorem produceByte_cases (s : State) :
    (0 < s.rem ∧ s.tk = .rpb ∧ produceByte s = (.byte s.val, s)) ∨
    (0 < s.rem ∧ s.tk = .rpp ∧ 1 ≤ s.off ∧ s.off ≤ s.n ∧
      ∃ b, s.hist[s.n - s.off]? = some b ∧ produceByte s = (.byte b, s)) ∨
    (0 < s.rem ∧ s.tk = .lit ∧
      ∃ b, s.src[s.sc]? = some b ∧ produceByte s = (.byte b, s.consume 1)) ∨
    (0 < s.rem ∧ s.tk = .lit ∧ s.src[s.sc]? = none ∧
      produceByte s = (.error .truncated, s.raise .truncated)) ∨
    ((s.rem = 0 ∨ s.tk = .none ∨ (s.tk = .rpp ∧ ¬ (1 ≤ s.off ∧ s.off ≤ s.n))) ∧
      ∃ f, (f = .noByteDue ∨ f = .historyOutOfRange) ∧ produceByte s = (.undefined f, s)) := by
  unfold produceByte
  by_cases hr : s.rem = 0
  · exact .inr (.inr (.inr (.inr ⟨.inl hr, _, .inl rfl, by rw [if_pos hr]⟩)))
  · rw [if_neg hr]
    have hpos := Nat.pos_of_ne_zero hr
    split
    · rename_i hk
      exact .inr (.inr (.inr (.inr ⟨.inr (.inl hk), _, .inl rfl, rfl⟩)))
    · rename_i hk
      exact .inl ⟨hpos, hk, rfl⟩
    · rename_i hk
      by_cases hc : 1 ≤ s.off ∧ s.off ≤ s.n
      · obtain ⟨b, hb, hb'⟩ := State.histBack_isSome hc.1 hc.2
        exact .inr (.inl ⟨hpos, hk, hc.1, hc.2, b, hb', by rw [hb]⟩)
      · have hb : s.histBack s.off = none := by simp only [State.histBack, hc, if_false]
        exact .inr (.inr (.inr (.inr ⟨.inr (.inr ⟨hk, hc⟩), _, .inr rfl, by rw [hb]⟩)))
    · rename_i hk
      cases hb : s.src[s.sc]? with
      | some b => exact .inr (.inr (.inl ⟨hpos, hk, b, rfl, by simp only [State.srcRead, hb]⟩))
      | none => exact .inr (.inr (.inr (.inl ⟨hpos, hk, rfl, by simp only [State.srcRead, hb]⟩)))

theorem emit_run {s : State} (h : s.dstat = .run) :
    emit s = match produceByte s with
      | (.byte b, t) => (.byte b, t.appendByte b)
      | (.endOfStream, t) => (.endOfStream, t)
      | (.error e, t) => (.error e, t)
      | (.undefined f, t) => (.undefined f, t) := by
  unfold emit
  split
  · simp_all
  · simp_all
  · rfl

/-- An outcome already reached is answered again, and nothing changes (40 R120). -/
theorem emit_ended {s : State} (h : s.dstat = .ended) : emit s = (.endOfStream, s) := by
  unfold emit; split <;> simp_all

theorem emit_failed {s : State} {e : StreamError} (h : s.dstat = .error e) : emit s = (.error e, s) := by
  unfold emit; split <;> simp_all

/-- What `decodeNext` can do once no fetch is due (40 R120). -/
theorem emit_cases (s : State) :
    (s.dstat = .run ∧ 0 < s.rem ∧ s.tk = .rpb ∧ emit s = (.byte s.val, s.appendByte s.val)) ∨
    (s.dstat = .run ∧ 0 < s.rem ∧ s.tk = .rpp ∧ 1 ≤ s.off ∧ s.off ≤ s.n ∧
      ∃ b, s.hist[s.n - s.off]? = some b ∧ emit s = (.byte b, s.appendByte b)) ∨
    (s.dstat = .run ∧ 0 < s.rem ∧ s.tk = .lit ∧
      ∃ b, s.src[s.sc]? = some b ∧ emit s = (.byte b, (s.consume 1).appendByte b)) ∨
    (s.dstat = .run ∧ 0 < s.rem ∧ s.tk = .lit ∧ s.src[s.sc]? = none ∧
      emit s = (.error .truncated, s.raise .truncated)) ∨
    (s.dstat = .run ∧ (s.rem = 0 ∨ s.tk = .none ∨ (s.tk = .rpp ∧ ¬ (1 ≤ s.off ∧ s.off ≤ s.n))) ∧
      ∃ f, (f = .noByteDue ∨ f = .historyOutOfRange) ∧ emit s = (.undefined f, s)) ∨
    (s.dstat = .ended ∧ emit s = (.endOfStream, s)) ∨
    (∃ e, s.dstat = .error e ∧ emit s = (.error e, s)) := by
  cases hd : s.dstat with
  | ended => exact .inr (.inr (.inr (.inr (.inr (.inl ⟨rfl, emit_ended hd⟩)))))
  | error e => exact .inr (.inr (.inr (.inr (.inr (.inr ⟨e, rfl, emit_failed hd⟩)))))
  | run =>
    rw [emit_run hd]
    rcases produceByte_cases s with ⟨h1, h2, h3⟩ | ⟨h1, h2, h3, h4, b, h5, h6⟩ | ⟨h1, h2, b, h3, h4⟩ |
      ⟨h1, h2, h3, h4⟩ | ⟨h1, f, hf, h2⟩
    · exact .inl ⟨rfl, h1, h2, by rw [h3]⟩
    · exact .inr (.inl ⟨rfl, h1, h2, h3, h4, b, h5, by rw [h6]⟩)
    · exact .inr (.inr (.inl ⟨rfl, h1, h2, b, h3, by rw [h4]⟩))
    · exact .inr (.inr (.inr (.inl ⟨rfl, h1, h2, h3, by rw [h4]⟩)))
    · exact .inr (.inr (.inr (.inr (.inl ⟨rfl, h1, f, hf, by rw [h2]⟩))))

/-- A running RepeatByte produces its value (40 R126). -/
theorem emit_rpb {s : State} (h1 : s.dstat = .run) (h2 : 0 < s.rem) (h3 : s.tk = .rpb) :
    emit s = (.byte s.val, s.appendByte s.val) := by
  have : s.rem ≠ 0 := by omega
  rw [emit_run h1]; simp [produceByte, this, h3]

/-- A running RepeatPattern produces the byte `off` positions back (40 R127). -/
theorem emit_rpp {s : State} {b : Byte} (h1 : s.dstat = .run) (h2 : 0 < s.rem) (h3 : s.tk = .rpp)
    (h4 : 1 ≤ s.off) (h5 : s.off ≤ s.n) (h6 : s.hist[s.n - s.off]? = some b) :
    emit s = (.byte b, s.appendByte b) := by
  have : s.rem ≠ 0 := by omega
  obtain ⟨b', h7, h8⟩ := State.histBack_isSome h4 h5
  rw [h6] at h8; cases h8
  rw [emit_run h1]; simp [produceByte, this, h3, h7]

/-- A running Literal produces the byte at the cursor (40 R128). -/
theorem emit_lit {s : State} {b : Byte} (h1 : s.dstat = .run) (h2 : 0 < s.rem) (h3 : s.tk = .lit)
    (h4 : s.src[s.sc]? = some b) :
    emit s = (.byte b, (s.consume 1).appendByte b) := by
  have : s.rem ≠ 0 := by omega
  rw [emit_run h1]; simp [produceByte, this, h3, State.srcRead, h4]

/-- A running Literal at the end of the stream is TruncatedStream (40 R128). -/
theorem emit_lit_end {s : State} (h1 : s.dstat = .run) (h2 : 0 < s.rem) (h3 : s.tk = .lit)
    (h4 : s.src[s.sc]? = none) :
    emit s = (.error .truncated, s.raise .truncated) := by
  have : s.rem ≠ 0 := by omega
  rw [emit_run h1]; simp [produceByte, this, h3, State.srcRead, h4]

/-- A pull stops with a fault only where the rules define no answer (log entry 20), and is never refused. -/
theorem pull_fault {s : State} {f : Fault} (h : answerPull (emit s) = .fault f) :
    (f = .noByteDue ∨ f = .historyOutOfRange) ∧ s.dstat = .run ∧
      (s.rem = 0 ∨ s.tk = .none ∨ (s.tk = .rpp ∧ ¬ (1 ≤ s.off ∧ s.off ≤ s.n))) := by
  rcases emit_cases s with ⟨-, -, -, e⟩ | ⟨-, -, -, -, -, b, -, e⟩ | ⟨-, -, -, b, -, e⟩ | ⟨-, -, -, -, e⟩ |
    ⟨h1, h2, g, hg, e⟩ | ⟨-, e⟩ | ⟨x, -, e⟩ <;> rw [e] at h <;> cases h
  exact ⟨hg, h1, h2⟩

theorem pull_not_refused {s : State} {r : Refusal} : answerPull (emit s) ≠ .refused r := by
  intro h
  rcases emit_cases s with ⟨-, -, -, e⟩ | ⟨-, -, -, -, -, b, -, e⟩ | ⟨-, -, -, b, -, e⟩ | ⟨-, -, -, -, e⟩ |
    ⟨-, -, g, -, e⟩ | ⟨-, e⟩ | ⟨x, -, e⟩ <;> rw [e] at h <;> cases h

/-- What a pull can do from a state in which no fetch is due, or whose fetch is done: produce a byte, or end the
command with the outcome reached (40 R120, 41 R168). -/
theorem pull_next {s t : State} (h : answerPull (emit s) = .next t) :
    (s.dstat = .run ∧ 0 < s.rem ∧ ∃ b,
      (((s.tk = .rpb ∧ b = s.val) ∨ (s.tk = .rpp ∧ 1 ≤ s.off ∧ s.off ≤ s.n ∧ s.hist[s.n - s.off]? = some b)) ∧
        t = { s.appendByte b with pend := b, ws := .gate }) ∨
      (s.tk = .lit ∧ s.src[s.sc]? = some b ∧
        t = { (s.consume 1).appendByte b with pend := b, ws := .gate })) ∨
    (s.dstat = .ended ∧ t = s.endCommand .ok) ∨
    (∃ e, s.dstat = .error e ∧ t = s.endCommand (Status.ofError e)) ∨
    (s.dstat = .run ∧ 0 < s.rem ∧ s.tk = .lit ∧ s.src[s.sc]? = none ∧
      t = (s.raise .truncated).endCommand .truncated) := by
  rcases emit_cases s with ⟨h1, h2, h3, h4⟩ | ⟨h1, h2, h3, h4, h5, b, h6, h7⟩ | ⟨h1, h2, h3, b, h4, h5⟩ |
    ⟨h1, h2, h3, h4, h5⟩ | ⟨h1, h2, f, -, h3⟩ | ⟨h1, h2⟩ | ⟨e, h1, h2⟩
  · rw [h4] at h; cases h
    exact .inl ⟨h1, h2, _, .inl ⟨.inl ⟨h3, rfl⟩, rfl⟩⟩
  · rw [h7] at h; cases h
    exact .inl ⟨h1, h2, b, .inl ⟨.inr ⟨h3, h4, h5, h6⟩, rfl⟩⟩
  · rw [h5] at h; cases h
    exact .inl ⟨h1, h2, b, .inr ⟨h3, h4, rfl⟩⟩
  · rw [h5] at h; cases h
    exact .inr (.inr (.inr ⟨h1, h2, h3, h4, rfl⟩))
  · rw [h3] at h; cases h
  · rw [h2] at h; cases h
    exact .inr (.inl ⟨h1, rfl⟩)
  · rw [h2] at h; cases h
    exact .inr (.inr (.inl ⟨e, h1, rfl⟩))

/-! ### The fetch parts (40 R125 to R129) -/

theorem State.distanceUsable_iff {s : State} {o : Nat} :
    s.distanceUsable o = true ↔ 1 ≤ o ∧ o ≤ s.cfg.codec.maxOffset ∧ o ≤ s.n := by
  simp [State.distanceUsable, and_assoc]

/-- The fetch part of RPP: malformed, or the distance latched (40 R127). -/
theorem fetchRpp_cases (o count : Nat) (s : State) :
    (¬ (1 ≤ o ∧ o ≤ s.cfg.codec.maxOffset ∧ o ≤ s.n) ∧
      fetchRpp o count s = (s.consume (1 + s.cfg.codec.rppOperands)).raise .malformed) ∨
    ((1 ≤ o ∧ o ≤ s.cfg.codec.maxOffset ∧ o ≤ s.n) ∧
      fetchRpp o count s =
        { s.consume (1 + s.cfg.codec.rppOperands) with off := o, tk := .rpp, rem := count }) := by
  unfold fetchRpp
  rw [← State.distanceUsable_iff]
  cases s.distanceUsable o <;> simp

/-- A token runs its fetch part where the decoder has no outcome yet (40 R120). -/
theorem runToken_run {fetch : State → State} {s : State} (h : s.dstat = .run) :
    runToken fetch s = answerPull (emit (fetch s)) := by
  simp [runToken, h]

/-- An outcome already reached is sticky (10_state R30). -/
theorem runToken_sticky {fetch : State → State} {s : State} (h : s.dstat ≠ .run) :
    runToken fetch s = answerPull (emit s) := by
  cases hd : s.dstat <;> simp_all [runToken]

end Sys2Proof.Machine
end

