-- ==== Sys2Proof/Laws/Memory.lean ====
section
/-!
SUPPORT. Reading and writing memory, and its canonical form.
-/
namespace Sys2Proof.Machine

@[simp] theorem Memory.read_nil (a : Nat) : Memory.read [] a = none := rfl

/-- An address below every listed one is unlisted. -/
theorem Memory.read_of_lt : ∀ {m : Memory} {a : Nat}, (∀ c ∈ m, a < c.1) → Memory.read m a = none
  | [], _, _ => rfl
  | (b, w) :: m, a, h => by
    have hb : a < b := h (b, w) (List.mem_cons_self ..)
    have ih := Memory.read_of_lt (m := m) (a := a) fun c hc => h c (by simp [hc])
    simp [Memory.read, ih, Nat.ne_of_lt hb]

/-- A read after a write to the same address gives the byte written. -/
@[simp] theorem Memory.read_write_same (m : Memory) (a : Nat) (v : Byte) :
    Memory.read (Memory.write m a v) a = some v := by
  induction m with
  | nil => simp [Memory.write, Memory.read]
  | cons c m ih =>
    obtain ⟨b, w⟩ := c
    unfold Memory.write
    split
    · simp [Memory.read]
    · split
      · simp [Memory.read]
      · simp [Memory.read, *]

/-- A write leaves every other address alone. -/
theorem Memory.read_write_other (m : Memory) {a a' : Nat} (v : Byte) (h : a' ≠ a) :
    Memory.read (Memory.write m a v) a' = Memory.read m a' := by
  induction m with
  | nil => simp [Memory.write, Memory.read, h]
  | cons c m ih =>
    obtain ⟨b, w⟩ := c
    unfold Memory.write
    split
    · simp [Memory.read, h]
    · split
      · rename_i hab
        simp [Memory.read, h, ← hab]
      · simp [Memory.read, ih]

/-- The entries after a write are the old ones and the one written. -/
theorem Memory.mem_write {m : Memory} {a : Nat} {v : Byte} {c : Host.Cell}
    (h : c ∈ Memory.write m a v) : c = (a, v) ∨ c ∈ m := by
  induction m with
  | nil => simpa [Memory.write] using h
  | cons d m ih =>
    obtain ⟨b, w⟩ := d
    unfold Memory.write at h
    split at h
    · simpa using h
    · split at h
      · rcases List.mem_cons.1 h with h | h
        · exact .inl h
        · exact .inr (by simp [h])
      · rcases List.mem_cons.1 h with h | h
        · exact .inr (by simp [h])
        · rcases ih h with h | h
          · exact .inl h
          · exact .inr (by simp [h])

/-- Empty memory is in canonical form. -/
theorem Memory.wf_nil : Memory.wf [] := List.Pairwise.nil

/-- A write keeps the canonical form. -/
theorem Memory.wf_write {m : Memory} (a : Nat) (v : Byte) (h : Memory.wf m) :
    Memory.wf (Memory.write m a v) := by
  induction m with
  | nil => simp [Memory.write, Memory.wf]
  | cons c m ih =>
    obtain ⟨b, w⟩ := c
    obtain ⟨hb, hm⟩ := List.pairwise_cons.1 h
    unfold Memory.write
    split
    · rename_i hlt
      refine List.pairwise_cons.2 ⟨fun d hd => ?_, h⟩
      rcases List.mem_cons.1 hd with rfl | hd
      · exact hlt
      · exact Nat.lt_trans hlt (hb d hd)
    · split
      · rename_i hab
        subst hab
        exact List.pairwise_cons.2 ⟨hb, hm⟩
      · rename_i hlt hne
        refine List.pairwise_cons.2 ⟨fun d hd => ?_, ih hm⟩
        rcases Memory.mem_write hd with rfl | hd
        · exact Nat.lt_of_le_of_ne (Nat.not_lt.1 hlt) (Ne.symm hne)
        · exact hb d hd

/-- Every operation of the machine on memory, the two write steps' stores included, keeps the canonical form. -/
theorem State.memWrite_wf {s : State} (a : Nat) (v : Byte) (m : Option Mode) (h : Memory.wf s.mem) :
    Memory.wf (s.memWrite a v m).mem := Memory.wf_write a v h

theorem State.memWriteUngated_wf {s : State} (a : Nat) (v : Byte) (h : Memory.wf s.mem) :
    Memory.wf (s.memWriteUngated a v).mem := Memory.wf_write a _ h

/-- Memory at reset is in canonical form. -/
theorem State.reset_mem_wf : Memory.wf State.reset.mem := Memory.wf_nil

end Sys2Proof.Machine
end

