-- ==== Sys2Proof/Laws/PerInstr.lean ====
section
/-!
SUPPORT. Statements made instruction by instruction.
-/
namespace Sys2Proof.Laws.FetchedBytes

/-- In `CODEC_GBC` the fetched part of an instruction has the length its fetch moves the cursor by (10_state R24,
30_encoding R99); a command has no bytes in the stream. -/
def Statement (i : Instr) : Prop := (encodeToken i).length = i.fetchLength codecGbc

theorem endToken : Statement .endToken := rfl
theorem rpb (value : Byte) (count : Nat) : Statement (.rpb value count) := rfl
theorem unk (c : Byte) : Statement (.unk c) := rfl
theorem rpp (offset count : Nat) : Statement (.rpp offset count) := rfl
theorem lit (run : Nat) : Statement (.lit run) := rfl
theorem dbuf (args : CmdArgs) : Statement (.dbuf args) := rfl
theorem dbkg (args : CmdArgs) : Statement (.dbkg args) := rfl
theorem dwin (args : CmdArgs) : Statement (.dwin args) := rfl
theorem dspr (args : CmdArgs) : Statement (.dspr args) := rfl

end Sys2Proof.Laws.FetchedBytes
end

