-- ==== Sys2Proof/Laws/Step.lean ====
section
/-!
SUPPORT. What a step can do: one lemma per shared operation, and the cases of a whole step.
-/
namespace Sys2Proof.Machine

/-! ## The phases -/

theorem State.busy_iff {s : State} : s.busy = true ↔ s.ws = .pull ∨ s.ws = .gate := by
  unfold State.busy; cases s.ws <;> simp

theorem State.not_busy_iff {s : State} : s.busy = false ↔ s.ws = .idle ∨ s.ws = .done := by
  unfold State.busy; cases s.ws <;> simp

theorem State.fetchDue_iff {s : State} : s.fetchDue = true ↔ s.dstat = .run ∧ s.rem = 0 := by
  simp [State.fetchDue]

/-! ## One step, by the host's next move (41 R160, R167; 60 R220) -/

/-- A move, carried out. -/
def Move.outcome : Move → Result State
  | .run i t => exec i t
  | .other r => r

/-- The engine's move, carried out. -/
def engineStep (s : State) : Result State := (engineMove s).outcome

theorem step_eq_outcome (s : State) : step s = (nextMove s).outcome := by
  unfold step; cases nextMove s <;> rfl

theorem step_reset {s : State} {h : List HostMove} (hh : s.host = .reset :: h) :
    step s = .next { s with host := h }.resetBlock := by
  simp only [step_eq_outcome, nextMove, hh, Move.outcome]

theorem step_start {s : State} {r : Request} {h : List HostMove} (hh : s.host = .start r :: h)
    (hb : s.busy = false) : step s = exec (decodeRequest r) { s with host := h } := by
  simp only [step_eq_outcome, nextMove, hh, hb, Bool.false_eq_true, if_false, Move.outcome]

theorem step_start_busy {s : State} {r : Request} {h : List HostMove} (hh : s.host = .start r :: h)
    (hb : s.busy = true) : step s = engineStep s := by
  simp only [step_eq_outcome, engineStep, nextMove, hh, hb, if_true]

theorem step_wait {s : State} {h : List HostMove} (hh : s.host = .wait :: h) (hb : s.busy = false) :
    step s = .next { s with host := h } := by
  simp only [step_eq_outcome, nextMove, hh, hb, Bool.false_eq_true, if_false, Move.outcome]

theorem step_wait_busy {s : State} {h : List HostMove} (hh : s.host = .wait :: h) (hb : s.busy = true) :
    step s = engineStep { s with host := h } := by
  simp only [step_eq_outcome, engineStep, nextMove, hh, hb, if_true]

theorem step_quiet {s : State} (hh : s.host = []) : step s = engineStep s := by
  simp only [step_eq_outcome, engineStep, nextMove, hh]

/-! ## The engine's step, by phase (41 R167) -/

theorem engineStep_idle {s : State} (h : s.busy = false) : engineStep s = .fault .noEnabledStep := by
  rcases State.not_busy_iff.1 h with h | h <;> simp only [engineStep, Move.outcome, engineMove, h]

theorem engineStep_gate {s : State} (h : s.ws = .gate) : engineStep s = writeStep s := by
  simp only [engineStep, Move.outcome, engineMove, h]

theorem engineStep_continue {s : State} (h : s.ws = .pull) (hf : s.fetchDue = false) :
    engineStep s = answerPull (emit s) := by
  simp only [engineStep, Move.outcome, engineMove, h, pullMove, hf, Bool.false_eq_true, if_false, continueToken]

theorem engineStep_token {s : State} {i : Instr} {rest : List Byte} (h : s.ws = .pull)
    (hf : s.fetchDue = true) (hd : decodeWith s.cfg.codec (s.src.drop s.sc) = .token i rest) : engineStep s = exec i s := by
  simp only [engineStep, Move.outcome, engineMove, h, pullMove, hf, if_true, hd]

theorem engineStep_truncated {s : State} {m : Missing} (h : s.ws = .pull) (hf : s.fetchDue = true)
    (hd : decodeWith s.cfg.codec (s.src.drop s.sc) = .truncated m) :
    engineStep s = .next { s with
      sc := s.sc + (s.src.drop s.sc).length, dstat := .error .truncated
      status := .truncated, ws := .done } := by
  simp only [engineStep, Move.outcome, engineMove, h, pullMove, hf, if_true, hd]
  rfl

/-! ## The write steps (41 R169, R170) -/

theorem engineStep_buffer {s : State} (h : s.ws = .gate) (hk : s.dk = .buf) :
    engineStep s = bufferWrite s := by
  rw [engineStep_gate h]; simp only [writeStep, hk]

theorem engineStep_tiles {s : State} {tb : TileTable} (h : s.ws = .gate) (hk : s.dk = .tiles tb) :
    engineStep s = gatedWrite tb s := by
  rw [engineStep_gate h]; simp only [writeStep, hk]

theorem writeStep_ne_fault {s : State} {f : Fault} : writeStep s ≠ .fault f := by
  unfold writeStep bufferWrite gatedWrite tileWrite
  repeat' split
  all_goals nofun

theorem bufferWrite_next {s t : State} (h : bufferWrite s = .next t) :
    s.bufferRefusal? = none ∧
      t = { s.memWriteUngated s.bufferAddr s.pend with wn := s.wn + 1, ws := .pull } := by
  unfold bufferWrite at h
  cases hr : s.bufferRefusal? with
  | some r => rw [hr] at h; cases h
  | none => rw [hr] at h; cases h; exact ⟨rfl, rfl⟩

theorem tileWrite_next {tb : TileTable} {m : Mode} {s t : State} (h : tileWrite tb m s = .next t) :
    s.tileRefusal? tb = none ∧
      t = { (s.memWrite (s.tileAddr tb) s.pend (some m)).advanceTile tb with ws := .pull } := by
  unfold tileWrite at h
  cases hr : s.tileRefusal? tb with
  | some r => rw [hr] at h; cases h
  | none => rw [hr] at h; cases h; exact ⟨rfl, rfl⟩

/-- The address and the refusal of a tile write do not depend on the oracle. -/
@[simp] theorem State.afterQuery_tileAddr (s : State) (tb : TileTable) :
    s.afterQuery.tileAddr tb = s.tileAddr tb := rfl
@[simp] theorem State.afterQuery_tileRefusal (s : State) (tb : TileTable) :
    s.afterQuery.tileRefusal? tb = s.tileRefusal? tb := rfl

/-- One slot (41 R170): an allowed write, or a turn of the spin. -/
theorem gatedWrite_next {tb : TileTable} {s t : State} (h : gatedWrite tb s = .next t) :
    (tableAllows (s.cfg.table tb) s.nextAnswer = true ∧ s.tileRefusal? tb = none ∧
      t = { (s.afterQuery.memWrite (s.tileAddr tb) s.pend (some s.nextAnswer)).advanceTile tb with
        ws := .pull }) ∨
    (tableAllows (s.cfg.table tb) s.nextAnswer = false ∧ t = s.afterQuery) := by
  unfold gatedWrite at h
  split at h
  · rename_i ha
    obtain ⟨h1, h2⟩ := tileWrite_next h
    exact .inl ⟨ha, h1, h2⟩
  · rename_i ha
    cases h
    exact .inr ⟨by simpa using ha, rfl⟩

theorem bufferRefusal_none {s : State} :
    s.bufferRefusal? = none ↔ s.bufferAddr < 2 ^ s.cfg.addrBits ∧ s.inSource s.bufferAddr = false := by
  unfold State.bufferRefusal? State.addressExists
  split
  · rename_i h
    simp only [Bool.not_eq_true', decide_eq_false_iff_not] at h
    simp [h]
  · rename_i h
    simp only [Bool.not_eq_true', decide_eq_false_iff_not, Decidable.not_not] at h
    split <;> simp_all

theorem tileRefusal_none {s : State} {tb : TileTable} :
    s.tileRefusal? tb = none ↔ s.ti < (s.cfg.table tb).tiles ∧ s.tileAddr tb < 2 ^ s.cfg.addrBits ∧
      s.inSource (s.tileAddr tb) = false := by
  unfold State.tileRefusal? State.addressExists State.slotInTable
  split
  · rename_i h
    simp only [Bool.not_eq_true', Bool.and_eq_false_imp, decide_eq_true_eq, decide_eq_false_iff_not] at h
    constructor
    · intro hn; cases hn
    · rintro ⟨h1, h2, -⟩; exact absurd h2 (h h1)
  · rename_i h
    simp only [Bool.not_eq_true', Bool.and_eq_false_imp, decide_eq_true_eq, decide_eq_false_iff_not,
      Classical.not_imp, Decidable.not_not] at h
    split <;> simp_all

/-! ## Starting a command (41 R165) -/

theorem start_next {c : BitVec 2} {dk : DestKind} {a : CmdArgs} {s t : State}
    (h : start c dk a s = .next t) :
    s.busy = false ∧ historyFits s.cfg = true ∧ argumentFits s.cfg a dk = true ∧ t = s.startWith c dk a := by
  unfold start at h
  repeat' split at h
  all_goals cases h
  simp_all

theorem start_eq {c : BitVec 2} {dk : DestKind} {a : CmdArgs} {s : State} (h1 : s.busy = false)
    (h2 : historyFits s.cfg = true) (h3 : argumentFits s.cfg a dk = true) :
    start c dk a s = .next (s.startWith c dk a) := by
  simp [start, h1, h2, h3]

/-- A command that answers a next state has started: which selector and destination it set. -/
theorem exec_request_next {r : Request} {s t : State} (h : exec (decodeRequest r) s = .next t) :
    s.busy = false ∧ ∃ dk, t = s.startWith r.cmd dk r.args ∧
      ((r.cmd = 0#2 ∧ dk = .buf) ∨ (r.cmd = 3#2 ∧ dk = .tiles .spr) ∨
        (r.cmd ≠ 0#2 ∧ r.cmd ≠ 3#2 ∧ dk = .tiles .bg)) := by
  unfold decodeRequest at h
  have hc : r.cmd = 0#2 ∨ r.cmd = 1#2 ∨ r.cmd = 2#2 ∨ r.cmd = 3#2 := by
    generalize r.cmd = c
    revert c
    decide
  rcases hc with hc | hc | hc | hc <;> simp only [hc, if_true] at h
  · obtain ⟨h1, -, -, h4⟩ := start_next (h : execDbuf _ _ = _)
    exact ⟨h1, .buf, by rw [h4, hc], .inl ⟨hc, rfl⟩⟩
  · obtain ⟨h1, -, -, h4⟩ := start_next (h : execDbkg _ _ = _)
    exact ⟨h1, .tiles .bg, by rw [h4, hc], .inr (.inr ⟨by simp [hc], by simp [hc], rfl⟩)⟩
  · obtain ⟨h1, -, -, h4⟩ := start_next (h : execDwin _ _ = _)
    exact ⟨h1, .tiles .bg, by rw [h4, hc], .inr (.inr ⟨by simp [hc], by simp [hc], rfl⟩)⟩
  · obtain ⟨h1, -, -, h4⟩ := start_next (h : execDspr _ _ = _)
    exact ⟨h1, .tiles .spr, by rw [h4, hc], .inr (.inl ⟨hc, rfl⟩)⟩

/-! ## The tokens: what a pull that fetches is (40 R125 to R129) -/

theorem exec_token {i : Instr} (h : i.isToken = true) (s : State) :
    exec i s = runToken (Instr.fetchPart i) s := by
  cases i <;> first | rfl | cases h

/-- The fetched part of a token, by what it leaves: the cursor moved past it, and an outcome or a token to carry out,
whose count the codec gave and whose distance, if it has one, was checked (40 R121, R125 to R129). -/
theorem fetchPart_cases {c : Byte} {ops : List Byte} {k : Codec} {s : State} (hk : s.cfg.codec = k)
    (h : ops.length = k.operandCount (k.classOf c)) :
    (Instr.fetchPart (k.assemble c ops) s = { s.consume (1 + ops.length) with dstat := .ended }) ∨
    (∃ e, Instr.fetchPart (k.assemble c ops) s = (s.consume (1 + ops.length)).raise e) ∨
    (∃ n, k.count? c ops = some n ∧
      ((∃ v, Instr.fetchPart (k.assemble c ops) s =
          { s.consume (1 + ops.length) with val := v, tk := .rpb, rem := n }) ∨
       (∃ o, 1 ≤ o ∧ o ≤ k.maxOffset ∧ o ≤ s.n ∧ Instr.fetchPart (k.assemble c ops) s =
          { s.consume (1 + ops.length) with off := o, tk := .rpp, rem := n }) ∨
       (2 + ops.length ≤ k.reach ∧ Instr.fetchPart (k.assemble c ops) s =
          { s.consume (1 + ops.length) with tk := .lit, rem := n }))) := by
  subst hk
  unfold Codec.count?
  rcases assemble_cases s.cfg.codec c ops with ⟨hc, e⟩ | ⟨hc, e⟩ | ⟨hc, e⟩ | ⟨hc, e⟩ | ⟨hc, e⟩ <;>
    rw [e] <;> simp only [hc, Codec.operandCount] at h ⊢
  · exact .inl (by rw [h]; rfl)
  · exact .inr (.inl ⟨_, by rw [h]; rfl⟩)
  · refine .inr (.inr ⟨_, rfl, .inr (.inr ⟨?_, by rw [h]; rfl⟩)⟩)
    simp only [Codec.reach]; omega
  · exact .inr (.inr ⟨_, rfl, .inl ⟨_, by rw [h]; rfl⟩⟩)
  · rcases fetchRpp_cases (s.cfg.codec.rppDistance.eval c ops) (s.cfg.codec.rppCount.eval c ops) s with
      ⟨-, e⟩ | ⟨⟨h1, h2, h3⟩, e⟩
    · exact .inr (.inl ⟨_, by rw [h]; exact e⟩)
    · exact .inr (.inr ⟨_, rfl, .inr (.inl ⟨_, h1, h2, h3, by rw [h]; exact e⟩)⟩)

/-- The bytes of a fetch that finds too few are within the codec's reach. -/
theorem decodeWith_truncated_length {k : Codec} {bytes : List Byte} {m : Missing}
    (h : decodeWith k bytes = .truncated m) : bytes.length ≤ k.reach := by
  rcases decodeWith_truncated h with rfl | ⟨c, ops, rfl, hn⟩
  · simp
  · have := operandCount_reach k (k.classOf c)
    simp only [List.length_cons]; omega

/-- A pull stops with a fault of a broken precondition only (log entry 20), and is never refused. -/
theorem engineStep_pull_fault {s : State} {f : Fault} (hw : s.ws = .pull) (h : engineStep s = .fault f) :
    f = .noByteDue ∨ f = .historyOutOfRange := by
  cases hf : s.fetchDue with
  | false => rw [engineStep_continue hw hf] at h; exact (pull_fault h).1
  | true =>
    cases hd : decodeWith s.cfg.codec (s.src.drop s.sc) with
    | token i rest =>
      rw [engineStep_token hw hf hd, exec_token (decode_isToken hd),
        runToken_run (State.fetchDue_iff.1 hf).1] at h
      exact (pull_fault h).1
    | truncated m => rw [engineStep_truncated hw hf hd] at h; cases h

/-! ## The cases of a whole step -/

/-- The engine's step answers a next state in six ways (41 R167). -/
theorem engineStep_next {s t : State} (h : engineStep s = .next t) :
    (s.ws = .pull ∧ s.fetchDue = true ∧ ∃ i rest, decodeWith s.cfg.codec (s.src.drop s.sc) = .token i rest ∧
      answerPull (emit (Instr.fetchPart i s)) = .next t) ∨
    (s.ws = .pull ∧ s.fetchDue = true ∧ (s.src.drop s.sc).length ≤ s.cfg.codec.reach ∧
      t = { s with
        sc := s.sc + (s.src.drop s.sc).length, dstat := .error .truncated
        status := .truncated, ws := .done }) ∨
    (s.ws = .pull ∧ s.fetchDue = false ∧ answerPull (emit s) = .next t) ∨
    (s.ws = .gate ∧ s.dk = .buf ∧ s.bufferRefusal? = none ∧
      t = { s.memWriteUngated s.bufferAddr s.pend with wn := s.wn + 1, ws := .pull }) ∨
    (s.ws = .gate ∧ ∃ tb, s.dk = .tiles tb ∧
      ((tableAllows (s.cfg.table tb) s.nextAnswer = true ∧ s.tileRefusal? tb = none ∧
        t = { (s.afterQuery.memWrite (s.tileAddr tb) s.pend (some s.nextAnswer)).advanceTile tb with
          ws := .pull }) ∨
       (tableAllows (s.cfg.table tb) s.nextAnswer = false ∧ t = s.afterQuery))) := by
  cases hw : s.ws with
  | idle => rw [engineStep_idle (State.not_busy_iff.2 (.inl hw))] at h; cases h
  | done => rw [engineStep_idle (State.not_busy_iff.2 (.inr hw))] at h; cases h
  | pull =>
    cases hf : s.fetchDue with
    | false =>
      rw [engineStep_continue hw hf] at h
      exact .inr (.inr (.inl ⟨rfl, rfl, h⟩))
    | true =>
      cases hd : decodeWith s.cfg.codec (s.src.drop s.sc) with
      | token i rest =>
        rw [engineStep_token hw hf hd, exec_token (decode_isToken hd),
          runToken_run (State.fetchDue_iff.1 hf).1] at h
        exact .inl ⟨rfl, rfl, i, rest, rfl, h⟩
      | truncated m =>
        rw [engineStep_truncated hw hf hd] at h
        cases h
        exact .inr (.inl ⟨rfl, rfl, decodeWith_truncated_length hd, by rw [hw] at *⟩)
  | gate =>
    rw [engineStep_gate hw] at h
    unfold writeStep at h
    cases hk : s.dk with
    | buf =>
      rw [hk] at h
      obtain ⟨h1, h2⟩ := bufferWrite_next h
      exact .inr (.inr (.inr (.inl ⟨rfl, rfl, h1, h2⟩)))
    | tiles tb =>
      rw [hk] at h
      exact .inr (.inr (.inr (.inr ⟨rfl, tb, rfl, gatedWrite_next h⟩)))

/-- A step answers a next state in four ways: a reset, a Start, a host that lets an idle block be, or the engine's
step, before which a waiting host has let one move go by (41 R160, R167; 60 R220). -/
theorem step_next {s t : State} (h : step s = .next t) :
    (∃ hs, s.host = .reset :: hs ∧ t = { s with host := hs }.resetBlock) ∨
    (∃ r hs, s.host = .start r :: hs ∧ s.busy = false ∧
      exec (decodeRequest r) { s with host := hs } = .next t) ∨
    (∃ hs, s.host = .wait :: hs ∧ s.busy = false ∧ t = { s with host := hs }) ∨
    (s.busy = true ∧ ∃ hs, engineStep { s with host := hs } = .next t ∧
      (hs = s.host ∨ s.host = .wait :: hs)) := by
  cases hb : s.busy with
  | false =>
    match hh : s.host with
    | .reset :: hs =>
      rw [step_reset hh] at h; cases h
      exact .inl ⟨hs, rfl, rfl⟩
    | .start r :: hs =>
      rw [step_start hh hb] at h
      exact .inr (.inl ⟨r, hs, rfl, rfl, h⟩)
    | .wait :: hs =>
      rw [step_wait hh hb] at h; cases h
      exact .inr (.inr (.inl ⟨hs, rfl, rfl, rfl⟩))
    | [] => rw [step_quiet hh, engineStep_idle hb] at h; cases h
  | true =>
    match hh : s.host with
    | .reset :: hs =>
      rw [step_reset hh] at h; cases h
      exact .inl ⟨hs, rfl, rfl⟩
    | .start r :: hs =>
      rw [step_start_busy hh hb] at h
      exact .inr (.inr (.inr ⟨rfl, s.host, h, .inl hh⟩))
    | .wait :: hs =>
      rw [step_wait_busy hh hb] at h
      exact .inr (.inr (.inr ⟨rfl, hs, h, .inr rfl⟩))
    | [] =>
      rw [step_quiet hh] at h
      exact .inr (.inr (.inr ⟨rfl, s.host, h, .inl hh⟩))

end Sys2Proof.Machine
end

