-- ==== Sys2Proof/Laws/Safety.lean ====
section
/-!
SUPPORT. The engine's turn, and what a pull leaves of the writer.
-/
namespace Sys2Proof.Machine

theorem step_engineTurn {s : State} (h : s.engineTurn) : step s = engineStep s := by
  obtain ⟨hb, h | ⟨r, hs, h⟩⟩ := h
  · exact step_quiet h
  · exact step_start_busy h hb

/-- A step in which a token still has bytes to produce is the pull of one more (40 R120). -/
theorem step_continue {s : State} (h : s.engineTurn) (hw : s.ws = .pull) (hr : 0 < s.rem) :
    step s = answerPull (emit s) := by
  rw [step_engineTurn h, engineStep_continue hw]
  simp [State.fetchDue]; omega

/-- A step that finds too few bytes for a token (60 R203, R204). -/
theorem step_truncated {s : State} {m : Missing} (h : s.atFetch) (hd : decodeWith s.cfg.codec s.stream = .truncated m) :
    step s = .next { s with
      sc := s.sc + s.stream.length, dstat := .error .truncated
      status := .truncated, ws := .done } := by
  obtain ⟨h1, h2, h3, h4⟩ := h
  rw [step_engineTurn h1, engineStep_truncated h2 (State.fetchDue_iff.2 ⟨h3, h4⟩) hd]; rfl

/-- A pull step is what the writer does with the answer of `decodeNext` (40 R120, 41 R168). -/
theorem step_pull {s : State} (h : s.engineTurn) (hw : s.ws = .pull) : step s = answerPull (decodeNext s) := by
  rw [step_engineTurn h, decodeNext]
  cases hf : s.fetchDue with
  | false => rw [engineStep_continue hw hf, if_neg (by simp)]
  | true =>
    rw [if_pos rfl, fetchToken]
    cases hd : decodeWith s.cfg.codec s.stream with
    | token i rest =>
      rw [engineStep_token hw hf hd, exec_token (decode_isToken hd), runToken_run (State.fetchDue_iff.1 hf).1]
    | truncated m => rw [engineStep_truncated hw hf hd]; rfl

/-! ## What a pull changes (40 R120, 41 R168) -/

/-- A pull leaves everything but the decoder's elements, `pend`, `ws` and `STATUS` as it is. -/
structure SamePlace (s t : State) : Prop where
  instance_ : t.cfg = s.cfg ∧ t.host = s.host ∧ t.oracle = s.oracle ∧ t.slots = s.slots ∧ t.draws = s.draws
  arguments : t.src = s.src ∧ t.srcBase = s.srcBase ∧ t.cmd = s.cmd ∧ t.dst0 = s.dst0 ∧ t.tile0 = s.tile0
  cursor : t.dk = s.dk ∧ t.ti = s.ti ∧ t.bo = s.bo ∧ t.wn = s.wn
  memory : t.mem = s.mem ∧ t.trace = s.trace

/-- A pull that produced a byte: of the running token, or the first of a token fetched now. -/
structure PulledByte (s t : State) : Prop where
  phase : t.ws = .gate ∧ t.status = s.status ∧ s.dstat = .run ∧ t.dstat = .run
  output : t.hist = s.hist ++ [t.pend]
  cursor : t.sc = s.sc ∨ (s.sc < t.sc ∧ t.sc ≤ s.src.length)
  count : (t.rem + 1 = s.rem ∧ t.sc ≤ s.sc + 1 ∧ t.tk = s.tk ∧ t.off = s.off) ∨
    (s.rem = 0 ∧ (s.cfg.codec.Contract → t.rem < s.cfg.codec.maxCount) ∧ s.sc + 1 ≤ t.sc ∧
      t.sc ≤ s.sc + s.cfg.codec.reach ∧ t.tk ≠ .none ∧
      (t.off = s.off ∨ (1 ≤ t.off ∧ t.off ≤ s.cfg.codec.maxOffset)) ∧ (t.tk = .rpp → t.off ≤ s.n))

/-- A pull that ended the command: with success or an error, and nothing produced. -/
structure PulledEnd (s t : State) : Prop where
  phase : t.ws = .done
  outcome : (t.dstat = .ended ∧ t.status = .ok) ∨ ∃ e, t.dstat = .error e ∧ t.status = Status.ofError e
  output : t.hist = s.hist ∧ t.pend = s.pend
  cursor : t.sc = s.sc ∨ (s.sc < t.sc ∧ t.sc ≤ s.src.length)
  reach : t.sc ≤ s.sc + s.cfg.codec.reach
  frozen : s.dstat ≠ .run → t.dstat = s.dstat ∧ t.sc = s.sc ∧ t.tk = s.tk ∧ t.rem = s.rem ∧ t.val = s.val ∧ t.off = s.off
  count : (t.rem = s.rem ∧ t.tk = s.tk ∧ t.off = s.off) ∨
    (s.rem = 0 ∧ (s.cfg.codec.Contract → t.rem ≤ s.cfg.codec.maxCount) ∧ t.tk = .lit ∧ t.off = s.off ∧ s.sc + 1 ≤ t.sc)

/-- The pull step of a token that runs on, or of an outcome reached. -/
theorem pull_continue {s t : State} (h : answerPull (emit s) = .next t) :
    SamePlace s t ∧ (PulledByte s t ∨ PulledEnd s t) := by
  rcases pull_next h with ⟨h1, h2, b, ⟨h3, rfl⟩ | ⟨h3, h4, rfl⟩⟩ | ⟨h1, rfl⟩ | ⟨e, h1, rfl⟩ | ⟨h1, h2, h3, h4, rfl⟩
  · refine ⟨by constructor <;> simp [State.appendByte], .inl ?_⟩
    constructor <;> simp [State.appendByte, h1]
    omega
  · have : s.sc < s.src.length := (List.getElem?_eq_some_iff.1 h4).1
    refine ⟨by constructor <;> simp [State.appendByte], .inl ?_⟩
    constructor <;> simp [State.appendByte, h1]
    · omega
    · omega
  · refine ⟨by constructor <;> simp, .inr ?_⟩
    constructor <;> simp [h1]
  · refine ⟨by constructor <;> simp, .inr ?_⟩
    constructor <;> simp [h1]
  · refine ⟨by constructor <;> simp, .inr ?_⟩
    constructor <;> simp [h1, Status.ofError]

/-- The pull step that fetches a token. -/
theorem pull_fetch {s t : State} {i : Instr} {rest : List Byte}
    (hd : decodeWith s.cfg.codec (s.src.drop s.sc) = .token i rest)
    (hrun : s.dstat = .run) (hrem : s.rem = 0) (h : answerPull (emit (Instr.fetchPart i s)) = .next t) :
    SamePlace s t ∧ (PulledByte s t ∨ PulledEnd s t) := by
  obtain ⟨c, ops, hb, hops, rfl⟩ := decodeWith_token hd
  have hlen : s.sc + (1 + ops.length) ≤ s.src.length := by
    have := congrArg List.length hb
    simp only [List.length_drop, List.length_cons, List.length_append] at this
    omega
  have hreach := operandCount_reach s.cfg.codec (s.cfg.codec.classOf c)
  rw [← hops] at hreach
  rcases fetchPart_cases (s := s) rfl hops with e | ⟨x, e⟩ | ⟨n, hc, e⟩
  · rw [e, emit_ended rfl] at h; cases h
    refine ⟨by constructor <;> simp, .inr ?_⟩
    constructor <;> simp [hrun]
    · omega
    · omega
  · rw [e, emit_failed rfl] at h; cases h
    refine ⟨by constructor <;> simp, .inr ?_⟩
    constructor <;> simp [hrun]
    · omega
    · omega
  · have hn : s.cfg.codec.Contract → n ≤ s.cfg.codec.maxCount := fun hk => (hk.counts c ops n hops hc).2
    rcases e with ⟨v, e⟩ | ⟨o, h3, h4, h5, e⟩ | ⟨hl, e⟩
    all_goals
      rw [e] at h
      rcases pull_next h with ⟨h1, h2, b, ⟨h6, rfl⟩ | ⟨h6, h7, rfl⟩⟩ | ⟨h1, -⟩ | ⟨x, h1, -⟩ | ⟨h1, h2, h6, h7, rfl⟩
      all_goals first | (simp [hrun] at h1; done) | skip
      all_goals first | (simp at h6; done) | skip
      all_goals simp only at h2
    · refine ⟨by constructor <;> simp, .inl ?_⟩
      constructor <;> simp [hrun, hrem]
      · omega
      · exact ⟨fun hk => by have := hn hk; omega, by omega⟩
    · refine ⟨by constructor <;> simp, .inl ?_⟩
      constructor <;> simp [hrun, hrem]
      · omega
      · simp only [State.n] at h5
        exact ⟨fun hk => by have := hn hk; omega, by omega, .inr ⟨h3, h4⟩, h5⟩
    · have : s.sc + (1 + ops.length) < s.src.length := (List.getElem?_eq_some_iff.1 h7).1
      refine ⟨by constructor <;> simp, .inl ?_⟩
      constructor <;> simp [hrun, hrem]
      · omega
      · exact ⟨fun hk => by have := hn hk; omega, by omega⟩
    · refine ⟨by constructor <;> simp, .inr ?_⟩
      constructor <;> simp [hrun, hrem, Status.ofError]
      · omega
      · omega
      · exact .inr hn

/-- Every pull: a byte, or the end of the command. -/
theorem engineStep_pull {s t : State} (hw : s.ws = .pull) (h : engineStep s = .next t) :
    SamePlace s t ∧ (PulledByte s t ∨ PulledEnd s t) := by
  rcases engineStep_next h with ⟨-, hf, i, rest, hd, h⟩ | ⟨-, hf, h2, rfl⟩ | ⟨-, -, h⟩ | ⟨h1, -⟩ | ⟨h1, -⟩
  · obtain ⟨h1, h2⟩ := State.fetchDue_iff.1 hf
    exact pull_fetch hd h1 h2 h
  · obtain ⟨h1, -⟩ := State.fetchDue_iff.1 hf
    refine ⟨by constructor <;> simp, .inr ?_⟩
    rw [List.length_drop] at *
    constructor <;> simp [h1, Status.ofError]
    · omega
    · omega
  · exact pull_continue h
  · rw [hw] at h1; cases h1
  · rw [hw] at h1; cases h1

/-! ## What the decoder does not touch (40 R120, R134) -/

/-- A change of the state that leaves alone everything a pull reads and commutes with everything it writes. -/
structure LeavesDecoder (f : State → State) : Prop where
  codec : ∀ s, (f s).cfg.codec = s.cfg.codec
  dstat : ∀ s, (f s).dstat = s.dstat
  rem : ∀ s, (f s).rem = s.rem
  tk : ∀ s, (f s).tk = s.tk
  val : ∀ s, (f s).val = s.val
  off : ∀ s, (f s).off = s.off
  hist : ∀ s, (f s).hist = s.hist
  src : ∀ s, (f s).src = s.src
  sc : ∀ s, (f s).sc = s.sc
  ws : ∀ s, (f s).ws = s.ws
  consume : ∀ s k, (f s).consume k = f (s.consume k)
  append : ∀ s b, (f s).appendByte b = f (s.appendByte b)
  raise : ∀ s e, (f s).raise e = f (s.raise e)
  fetch : ∀ i s, Instr.fetchPart i (f s) = f (Instr.fetchPart i s)
  hold : ∀ s b, { f s with pend := b, ws := .gate } = f { s with pend := b, ws := .gate }
  finish : ∀ s st, (f s).endCommand st = f (s.endCommand st)

theorem produceByte_commutes {f : State → State} (hf : LeavesDecoder f) (s : State) :
    produceByte (f s) = ((produceByte s).1, f (produceByte s).2) := by
  unfold produceByte
  rw [hf.rem, hf.tk]
  by_cases hz : s.rem = 0
  · rw [if_pos hz, if_pos hz]
  · rw [if_neg hz, if_neg hz]
    cases s.tk with
    | none => rfl
    | rpb => simp only [hf.val]
    | rpp =>
      have h : (f s).histBack (f s).off = s.histBack s.off := by
        simp only [State.histBack, State.n, hf.hist, hf.off]
      simp only [h]
      cases s.histBack s.off <;> rfl
    | lit =>
      have h : (f s).srcRead (f s).sc = s.srcRead s.sc := by simp only [State.srcRead, hf.src, hf.sc]
      simp only [h]
      cases s.srcRead s.sc with
      | none => simp only [hf.raise]
      | some b => simp only [hf.consume]

theorem emit_commutes {f : State → State} (hf : LeavesDecoder f) (s : State) :
    emit (f s) = ((emit s).1, f (emit s).2) := by
  unfold emit
  rw [hf.dstat, produceByte_commutes hf]
  cases s.dstat with
  | ended => rfl
  | error e => rfl
  | run =>
    simp only
    obtain ⟨a, t⟩ := produceByte s
    cases a <;> simp [hf.append]

theorem answerPull_commutes {f : State → State} (hf : LeavesDecoder f) (s : State) :
    answerPull (emit (f s)) = mapNext f (answerPull (emit s)) := by
  rw [emit_commutes hf]
  obtain ⟨a, t⟩ := emit s
  cases a <;> simp [answerPull, mapNext, hf.hold, hf.finish]

/-- A pull commutes with such a change. -/
theorem engineStep_pull_commutes {f : State → State} (hf : LeavesDecoder f) {s : State} (hw : s.ws = .pull) :
    engineStep (f s) = mapNext f (engineStep s) := by
  have hw' : (f s).ws = .pull := (hf.ws s).trans hw
  have hd : (f s).fetchDue = s.fetchDue := by simp only [State.fetchDue, hf.dstat, hf.rem]
  have hb : (f s).src.drop (f s).sc = s.src.drop s.sc := by rw [hf.src, hf.sc]
  cases hq : s.fetchDue with
  | false => rw [engineStep_continue hw hq, engineStep_continue hw' (hd.trans hq), answerPull_commutes hf]
  | true =>
    have hrun := (State.fetchDue_iff.1 hq).1
    cases hdc : decodeWith s.cfg.codec (s.src.drop s.sc) with
    | token i rest =>
      rw [engineStep_token hw hq hdc, engineStep_token hw' (hd.trans hq) (by rw [hb, hf.codec]; exact hdc),
        exec_token (decode_isToken hdc), exec_token (decode_isToken hdc), runToken_run hrun,
        runToken_run ((hf.dstat s).trans hrun), hf.fetch, answerPull_commutes hf]
    | truncated m =>
      rw [engineStep_truncated hw hq hdc, engineStep_truncated hw' (hd.trans hq) (by rw [hb, hf.codec]; exact hdc), hb]
      have h1 := hf.finish ((s.consume (s.src.drop s.sc).length).raise .truncated) .truncated
      have h2 := hf.raise (s.consume (s.src.drop s.sc).length) .truncated
      rw [← h2, ← hf.consume] at h1
      exact congrArg Host.Outcome.next h1

/-- The fetch of a back-reference commutes with a change that does. -/
theorem fetchRpp_commutes {f : State → State} (hk : ∀ s, (f s).cfg.codec = s.cfg.codec)
    (hh : ∀ s, (f s).hist = s.hist)
    (h1 : ∀ s k, (f s).consume k = f (s.consume k)) (h2 : ∀ s e, (f s).raise e = f (s.raise e))
    (h3 : ∀ s o n, { f s with off := o, tk := .rpp, rem := n } = f { s with off := o, tk := .rpp, rem := n })
    (o n : Nat) (s : State) : fetchRpp o n (f s) = f (fetchRpp o n s) := by
  have hu : (f s).distanceUsable o = s.distanceUsable o := by simp only [State.distanceUsable, State.n, hk, hh]
  unfold fetchRpp
  rw [hu, hk]
  split
  · rw [h1, h3]
  · simp only [h1, h2]

/-! ## Destinations -/

theorem DestKind.cases_eq (k : DestKind) : k = .buf ∨ ∃ t, k = .tiles t := by
  cases k <;> simp

/-- The addresses of two output bytes differ. -/
theorem State.outAddr_inj {s : State} {j k : Nat} (h : s.outAddr j = s.outAddr k) : j = k := by
  unfold State.outAddr at h; split at h <;> omega

/-- The addresses depend on the destination and its arguments only. -/
theorem State.outAddr_congr {s t : State} (h1 : t.dk = s.dk) (h2 : t.cfg = s.cfg) (h3 : t.dst0 = s.dst0)
    (h4 : t.tile0 = s.tile0) : t.outAddr = s.outAddr := by
  funext k; simp [State.outAddr, h1, h2, h3, h4]

/-- The selector of a started command fixes its destination (30_encoding R103). -/
theorem destOfSelector_eq {c : BitVec 2} {dk : DestKind}
    (h : (c = 0#2 ∧ dk = .buf) ∨ (c = 3#2 ∧ dk = .tiles .spr) ∨ (c ≠ 0#2 ∧ c ≠ 3#2 ∧ dk = .tiles .bg)) :
    dk = destOfSelector c := by
  rcases h with ⟨rfl, rfl⟩ | ⟨rfl, rfl⟩ | ⟨h1, h2, rfl⟩
  · rfl
  · rfl
  · simp [destOfSelector, h1, h2]

/-- Outside the tile tables an ungated write cannot be disturbed. -/
theorem State.not_disturbed {s : State} {a : Nat} (h : s.inTables a = false) : s.disturbed a = false := by
  simp only [State.inTables, Bool.or_eq_false_iff] at h
  simp [State.disturbed, h.1, h.2]

/-- Memory still holds the written prefix after the write of the pending byte at its address. -/
theorem MemoryInv.write {s t : State} (v : Byte) (hm : MemoryInv s) (hw : s.ws = .gate) (hi : WriterInv s)
    (h1 : t.dk = s.dk) (h2 : t.cfg = s.cfg) (h3 : t.dst0 = s.dst0) (h4 : t.tile0 = s.tile0)
    (h5 : t.hist = s.hist) (h6 : t.wn = s.wn + 1) (h7 : t.mem = s.mem.write (s.outAddr s.wn) v)
    (ha : s.outAddr s.wn < 2 ^ s.cfg.addrBits)
    (hv : (s.dk = .buf → s.inTables (s.outAddr s.wn) = false) → v = s.pend) : MemoryInv t := by
  have ho := State.outAddr_congr h1 h2 h3 h4
  obtain ⟨hn, hl⟩ := hi.pending hw
  constructor
  · rw [h7]; exact Memory.wf_write _ _ hm.canonical
  · intro c hc
    rw [h7] at hc
    rw [h2]
    rcases Memory.mem_write hc with rfl | hc
    · exact ha
    · exact hm.inSpace c hc
  · intro k hk hb
    rw [h6] at hk
    rw [h1, ho] at hb
    rw [ho, h5, h7]
    have hb : s.dk = .buf → s.inTables (s.outAddr k) = false := by
      intro h; have := hb h; simpa [State.inTables, h2] using this
    by_cases hkw : k = s.wn
    · subst hkw
      rw [Memory.read_write_same, hv hb]
      rw [List.getLast?_eq_getElem?] at hl
      rw [← hl]; congr 1
      simp only [State.n] at hn; omega
    · rw [Memory.read_write_other _ _ fun h => hkw (State.outAddr_inj h)]
      exact hm.holds k (by omega) hb

/-! ## Runs -/

theorem reaches_zero {s t : State} : Reaches s 0 t ↔ s = t := by
  simp only [Reaches, Host.Core.run]
  constructor
  · intro h; cases h; rfl
  · rintro rfl; rfl

theorem reaches_succ {s t u : State} {k : Nat} (h : step s = .next t) :
    Reaches s (k + 1) u ↔ Reaches t k u := by
  have hc : Sys2Proof.core.step s = .next t := h
  simp only [Reaches, Host.Core.run, hc]

/-- A run of some steps is a step and the run of the rest. -/
theorem reaches_succ_iff {s u : State} {k : Nat} :
    Reaches s (k + 1) u ↔ ∃ t, step s = .next t ∧ Reaches t k u := by
  constructor
  · intro h
    cases hs : step s with
    | next t => exact ⟨t, rfl, (reaches_succ hs).1 h⟩
    | fault r =>
      have hc : Sys2Proof.core.step s = .fault r := hs
      simp only [Reaches, Host.Core.run, hc] at h; cases h
    | refused r =>
      have hc : Sys2Proof.core.step s = .refused r := hs
      simp only [Reaches, Host.Core.run, hc] at h; cases h
  · rintro ⟨t, h1, h2⟩; exact (reaches_succ h1).2 h2

/-- Runs follow one another. -/
theorem reaches_add {s t u : State} {j k : Nat} (h : Reaches s j t) (h' : Reaches t k u) :
    Reaches s (j + k) u := by
  induction j generalizing s with
  | zero => rw [reaches_zero.1 h, Nat.zero_add]; exact h'
  | succ j ih =>
    rw [Nat.add_right_comm]
    obtain ⟨v, h1, h2⟩ := reaches_succ_iff.1 h
    exact (reaches_succ h1).2 (ih h2)

end Sys2Proof.Machine
end

