-- ==== Sys2Proof/Tests/Slice0.lean ====
section
/-!
SUPPORT. Tests against spec/95_test_vectors and words written out from the encodings; and for each statement with
hypotheses, states and operands that meet them.
-/
namespace Sys2Proof.Tests
open Sys2Proof.Machine

/-! ## Small states -/

/-- The state an outcome gives, if any. -/
def nextOf : Result State → Option State
  | .next t => some t
  | .fault _ => none
  | .refused _ => none

/-- The reason a step was refused, if it was. -/
def refusalOf : Result State → Option Refusal
  | .refused r => some r
  | .next _ => none
  | .fault _ => none

/-- A stream of the caller, outside the destination space. -/
def args (src : List Byte) (dst0 tile0 : Nat) : CmdArgs := { src := src, srcBase := none, dst0 := dst0, tile0 := tile0 }

/-- A buffer command at `0xC000` about to fetch its first token. -/
def running (src : List Byte) : State :=
  { State.reset with src := src, dst0 := 0xC000, ws := .pull, status := .busy }

/-- The same with some output made and written. -/
def running' (src hist : List Byte) : State := { running src with hist := hist, wn := hist.length }

/-- A buffer command that holds `b` for its first write. -/
def atGate (b : Byte) (dst0 : Nat) : State :=
  { running [0xC0#8, b, 0x00#8] with
    sc := 2, tk := .lit, hist := [b], ws := .gate, pend := b, dst0 := dst0 }

/-- A tile command that holds `b` for its first write. -/
def atTileGate (b : Byte) (tile0 : Nat) (script : List Mode) : State :=
  { atGate b 0 with
    cmd := 1#2, dk := .tiles .bg, tile0 := tile0, ti := tile0, oracle := script }

/-- The default instance is one the spec covers. -/
theorem gameBoy_lawful : Config.Lawful Config.gameBoy := ⟨codecGbc_contract, by decide⟩

theorem running_turn (src : List Byte) : (running src).engineTurn := ⟨rfl, .inl rfl⟩
theorem running_atFetch (src : List Byte) : (running src).atFetch := ⟨running_turn src, rfl, rfl, rfl⟩
theorem atGate_turn (b : Byte) (d : Nat) : (atGate b d).engineTurn := ⟨rfl, .inl rfl⟩
theorem atTileGate_turn (b : Byte) (t : Nat) (ms : List Mode) : (atTileGate b t ms).engineTurn := ⟨rfl, .inl rfl⟩

/-! ## Well-formedness: one ill-formed term for each check -/

/-- 30_encoding R95: a RepeatByte of count 1 has no encoding, nor one of 65. -/
theorem test_rpb_ill_formed :
    (Instr.rpb 0#8 1).wellFormed Config.gameBoy = false ∧ (Instr.rpb 0#8 65).wellFormed Config.gameBoy = false := by
  decide
/-- 30_encoding R97: the unrecognised bytes are `0x40` to `0x7F`. -/
theorem test_unk_ill_formed :
    (Instr.unk 0x3F#8).wellFormed Config.gameBoy = false ∧ (Instr.unk 0x80#8).wellFormed Config.gameBoy = false := by
  decide
/-- 30_encoding R92, R94: counts are 1 to 64, and a 16-bit field gives a distance from 1 to 65536. -/
theorem test_rpp_ill_formed :
    (Instr.rpp 1 0).wellFormed Config.gameBoy = false ∧ (Instr.rpp 1 65).wellFormed Config.gameBoy = false ∧
    (Instr.rpp 0 1).wellFormed Config.gameBoy = false ∧ (Instr.rpp 0x10001 1).wellFormed Config.gameBoy = false := by
  decide
theorem test_lit_ill_formed :
    (Instr.lit 0).wellFormed Config.gameBoy = false ∧ (Instr.lit 65).wellFormed Config.gameBoy = false := by
  decide
/-- 30_encoding R104: arguments fit their registers. -/
theorem test_command_ill_formed :
    (Instr.dbuf (args [] 0x10000 0)).wellFormed Config.gameBoy = false ∧
    (Instr.dbkg (args [] 0 256)).wellFormed Config.gameBoy = false ∧
    (Instr.dwin (args [] 0 256)).wellFormed Config.gameBoy = false ∧
    (Instr.dspr (args [] 0 256)).wellFormed Config.gameBoy = false := by
  decide

/-! ## Decoding, the words written out bit by bit -/

/-- `00000000` is END (30_encoding R96). -/
theorem test_decode_end : decode [0b00000000#8, 0xAA#8] = .token .endToken [0xAA#8] := by decide
/-- `00cccccc vvvvvvvv`: RPB of count 4 and of count 64 (95 V7, V6). -/
theorem test_decode_rpb :
    decode [0b00000011#8, 0b11111111#8] = .token (.rpb 0xFF#8 4) [] ∧
    decode [0b00111111#8, 0b01011010#8] = .token (.rpb 0x5A#8 64) [] := by
  decide
/-- `01xxxxxx`: both ends of the unrecognised range (95 V25, V26). -/
theorem test_decode_unk :
    decode [0b01000000#8] = .token (.unk 0x40#8) [] ∧ decode [0b01111111#8] = .token (.unk 0x7F#8) [] := by
  decide
/-- `10cccccc llllllll hhhhhhhh`: offset 3 and count 2; offset 32768 and count 1; a field of 0 (95 E1,
V16, V14). -/
theorem test_decode_rpp :
    decode [0b10000001#8, 0b11111101#8, 0b11111111#8] = .token (.rpp 3 2) [] ∧
    decode [0b10000000#8, 0b00000000#8, 0b10000000#8] = .token (.rpp 32768 1) [] ∧
    decode [0b10000000#8, 0b00000000#8, 0b00000000#8] = .token (.rpp 65536 1) [] := by
  decide
/-- `11cccccc`: run 3 and run 64, the data left in the stream (95 E1, V21). -/
theorem test_decode_lit :
    decode [0b11000010#8, 0x10#8, 0x20#8, 0x30#8] = .token (.lit 3) [0x10#8, 0x20#8, 0x30#8] ∧
    decode [0b11111111#8, 0x00#8] = .token (.lit 64) [0x00#8] := by
  decide
/-- The four selectors (30_encoding R103). -/
theorem test_decode_selectors :
    decodeRequest { cmd := 0b00#2, args := args [] 7 0 } = .dbuf (args [] 7 0) ∧
    decodeRequest { cmd := 0b01#2, args := args [] 0 2 } = .dbkg (args [] 0 2) ∧
    decodeRequest { cmd := 0b10#2, args := args [] 0 2 } = .dwin (args [] 0 2) ∧
    decodeRequest { cmd := 0b11#2, args := args [] 0 1 } = .dspr (args [] 0 1) := by
  decide
/-- Rejections by name (60 R203). -/
theorem test_decode_truncated :
    decode [] = .truncated .indicator ∧ decode [0x05#8] = .truncated (.operand .rpb) ∧
    decode [0x80#8] = .truncated (.operand .rpp) ∧ decode [0x80#8, 0xFF#8] = .truncated (.operand .rpp) := by
  decide
/-- Words of the opcode table. -/
theorem test_decode_table_words :
    decodeTableWord 8 0 = some .endToken ∧ decodeTableWord 16 0xFF03 = some (.rpb 0xFF#8 4) ∧
    decodeTableWord 8 0x40 = some (.unk 0x40#8) ∧ decodeTableWord 24 0xFFFD81 = some (.rpp 3 2) ∧
    decodeTableWord 8 0xC0 = some (.lit 1) ∧ decodeTableWord 2 0 = some (.dbuf (args [] 0 0)) ∧
    decodeTableWord 8 3 = some (.dspr (args [] 0 0)) := by
  decide
/-- The token lines of 95 E1 and their bytes (30_encoding R107). -/
theorem test_assemble_e1 :
    assemble [.lit [0x10#8, 0x20#8, 0x30#8], .rpb 0xFF#8 4, .rpp 3 2, .endToken] =
      some [0xC2#8, 0x10#8, 0x20#8, 0x30#8, 0x03#8, 0xFF#8, 0x81#8, 0xFD#8, 0xFF#8, 0x00#8] := by
  decide
/-- A codec of other ranges and other operands (30_encoding R91): 0xA0 to 0xAF back-references with one operand byte,
which holds the distance; every other byte unrecognised. -/
def otherCodec : Codec :=
  { codecGbc with
    rows := [{ mask := 0xF0#8, pattern := 0xA0#8, cls := .rpp }]
    rppOperands := 1, rppDistance := .operand 0, maxOffset := 255 }

theorem test_decode_other_codec :
    decodeWith otherCodec [0xA1#8, 0x05#8, 0x00#8] = .token (.rpp 5 34) [0x00#8] ∧
    decodeWith otherCodec [0xA1#8] = .truncated (.operand .rpp) ∧
    decodeWith otherCodec [0x00#8] = .token (.unk 0x00#8) [] := by
  decide
/-- The step decodes with the instance's codec, and moves `sc` past its operands. -/
theorem test_step_other_codec :
    (nextOf (step { running' [0xA1#8, 0x02#8] [7#8, 9#8] with cfg := { Config.gameBoy with codec := otherCodec } })).map
      (fun t => (t.sc, t.off, t.rem, t.pend, t.ws)) = some (2, 2, 33, 7#8, .gate) := by
  decide
/-- A count above 64 has no single-token encoding (30_encoding R108). -/
theorem test_assemble_too_long : assemble [.rpb 0xFF#8 65] = none := by decide

/-! ## One step of each instruction -/

/-- 95 V1: END as the first token. -/
theorem test_end :
    (nextOf (exec .endToken (running [0x00#8]))).map (fun t => (t.sc, t.n, t.status, t.ws)) =
      some (1, 0, .ok, .done) := by
  decide
/-- 95 V6: the first of 64 bytes. -/
theorem test_rpb :
    (nextOf (exec (.rpb 0x5A#8 64) (running [0x3F#8, 0x5A#8, 0x00#8]))).map
      (fun t => (t.sc, t.rem, t.hist, t.pend, t.ws)) = some (2, 63, [0x5A#8], 0x5A#8, .gate) := by
  decide
/-- 95 V25. -/
theorem test_unk :
    (nextOf (exec (.unk 0x7F#8) (running [0x7F#8]))).map (fun t => (t.sc, t.n, t.status, t.ws)) =
      some (1, 0, .unknown, .done) := by
  decide
/-- 95 V11: offset 2 of two bytes copies the first. -/
theorem test_rpp :
    (nextOf (exec (.rpp 2 6) (running' [0x85#8, 0xFE#8, 0xFF#8] [0xAB#8, 0xCD#8]))).map
      (fun t => (t.sc, t.off, t.rem, t.pend)) = some (3, 2, 5, 0xAB#8) := by
  decide
/-- 95 V12: an offset of one more than the output. -/
theorem test_rpp_malformed :
    (nextOf (exec (.rpp 4 3) (running' [0x82#8, 0xFC#8, 0xFF#8] [0x01#8, 0x02#8, 0x03#8]))).map
      (fun t => (t.sc, t.n, t.status, t.ws)) = some (3, 3, .malformed, .done) := by
  decide
/-- 95 V4: a literal's first data byte may be 0. -/
theorem test_lit :
    (nextOf (exec (.lit 3) (running [0xC2#8, 0x00#8, 0x40#8, 0x80#8, 0x00#8]))).map
      (fun t => (t.sc, t.rem, t.hist, t.status)) = some (2, 2, [0x00#8], .busy) := by
  decide
/-- 95 V27: the Start of a buffer command. -/
theorem test_dbuf :
    (nextOf (exec (.dbuf (args [0xC1#8] 0xC000 0)) State.reset)).map
      (fun t => (t.dk, t.dst0, t.sc, t.wn, t.status, t.ws)) = some (.buf, 0xC000, 0, 0, .busy, .pull) := by
  decide
/-- 95 V28: tile slot 2 of the background table is at `0x9020`. -/
theorem test_dbkg :
    (nextOf (exec (.dbkg (args [] 0 2)) State.reset)).map (fun t => (t.dk, t.tileAddr .bg)) =
      some (.tiles .bg, 0x9020) := by
  decide
/-- 95 V29. -/
theorem test_dwin :
    (nextOf (exec (.dwin (args [] 0 2)) State.reset)).map (fun t => (t.dk, t.tileAddr .bg)) =
      some (.tiles .bg, 0x9020) := by
  decide
/-- 95 V30: slot 1 of the sprite table is at `0x8010`. -/
theorem test_dspr :
    (nextOf (exec (.dspr (args [] 0 1)) State.reset)).map (fun t => (t.dk, t.tileAddr .spr)) =
      some (.tiles .spr, 0x8010) := by
  decide
/-- 30_encoding R104, 41 R160. -/
theorem test_start_refused :
    refusalOf (exec (.dbuf (args [] 0x10000 0)) State.reset) = some .argumentTooWide ∧
    refusalOf (exec (.dbuf (args [] 0 0)) (running [])) = some .startWhileBusy := by
  decide

/-! ## One step of the engine -/

/-- 95 V31, V32: the last address is usable, the next is not. -/
theorem test_buffer_write :
    (nextOf (step (atGate 0x55#8 0xFFFF))).map (fun t => (t.mem, t.wn, t.ws)) =
      some ([(0xFFFF, 0x55#8)], 1, .pull) ∧
    refusalOf (step (atGate 0x55#8 0x10000)) = some .addressOutOfRange := by
  decide
/-- 95 E2: a forbidden slot, then an allowed one. -/
theorem test_gated_write :
    (nextOf (step (atTileGate 0xA1#8 0 [.attributeSearch, .hblank]))).map
      (fun t => (t.mem, t.trace, t.oracle, t.ws)) = some ([], [], [.hblank], .gate) ∧
    (nextOf (step (atTileGate 0xA1#8 0 [.hblank]))).map (fun t => (t.mem, t.trace, t.bo, t.ws)) =
      some ([(0x9000, 0xA1#8)], [{ addr := 0x9000, byte := 0xA1#8, mode := some .hblank }], 1, .pull) := by
  decide
/-- 95 V34: slot 128 of 128, and the last slot there is. -/
theorem test_tile_range :
    refusalOf (step (atTileGate 0x01#8 128 [.hblank])) = some .addressOutOfRange ∧
    (nextOf (step (atTileGate 0x01#8 127 [.vblank]))).map (·.mem) = some [(0x97F0, 0x01#8)] := by
  decide
/-- 41 R174: byte 15 of a tile is followed by byte 0 of the next. -/
theorem test_tile_boundary :
    (nextOf (step { atTileGate 0xEE#8 2 [.hblank] with bo := 15 })).map (fun t => (t.mem, t.ti, t.bo)) =
      some ([(0x902F, 0xEE#8)], 3, 0) := by
  decide
/-- 95 V2, V8, V18, V19: the stream runs out before, between and in operands. -/
theorem test_truncated :
    [[], [0x05#8], [0x80#8], [0x80#8, 0xFF#8]].map
      (fun src => (nextOf (step (running src))).map fun t => (t.sc, t.n, t.status)) =
      [some (0, 0, .truncated), some (1, 0, .truncated), some (1, 0, .truncated), some (2, 0, .truncated)] := by
  decide
/-- 95 V22: the third byte of a literal is missing; `rem = 1` stays. -/
theorem test_literal_truncated :
    (nextOf (step { running' [0xC2#8, 0x10#8, 0x20#8] [0x10#8, 0x20#8] with sc := 3, tk := .lit, rem := 1 })).map
      (fun t => (t.sc, t.rem, t.status, t.wn)) = some (3, 1, .truncated, 2) := by
  decide
/-- Memory is kept by rising address, whatever the order of the writes. -/
theorem test_memory_form : Memory.write (Memory.write [] 5 1#8) 3 2#8 = [(3, 2#8), (5, 1#8)] := by decide

/-! ## The hypotheses of the statements are met -/

/-- DecodeEncodeToken, DecodeCodeEncode: the ends of every operand's range. -/
theorem witness_well_formed_tokens :
    ∀ i ∈ ([.endToken, .rpb 0#8 2, .rpb 0xFF#8 64, .unk 0x40#8, .unk 0x7F#8, .rpp 65536 1, .rpp 1 64,
        .lit 1, .lit 64] : List Instr),
      i.isToken = true ∧ i.wellFormed Config.gameBoy = true := by
  decide
/-- DecodeCodeEncode, CommandsStart: the ends of the arguments' ranges. -/
theorem witness_well_formed_commands :
    State.reset.busy = false ∧ historyFits State.reset.cfg = true ∧
    (args [] 0xFFFF 0).dstFits State.reset.cfg = true ∧ (args [] 0 255).tileFits State.reset.cfg = true := by
  decide
/-- EncodeDecodeToken, FetchLengthRead. -/
theorem witness_decoded : decode [0xBF#8, 0x00#8, 0x80#8, 0x00#8] = .token (.rpp 32768 64) [0x00#8] := by decide
/-- DistanceOfField: the two fields where its clauses meet, and an instance with that codec. -/
theorem witness_distance_fields :
    (0x7F#8 ++ 0xFF#8 : BitVec 16).toNat < 0x8000 ∧ 0x8000 ≤ (0x80#8 ++ 0x00#8 : BitVec 16).toNat ∧
    codecGbc.rppDistance.eval 0x80#8 [0xFF#8, 0x7F#8] = 32769 ∧
    codecGbc.rppDistance.eval 0x80#8 [0x00#8, 0x80#8] = 32768 ∧
    codecGbc.rppDistance.eval 0x80#8 [0xFF#8, 0xFF#8] = 1 ∧ State.reset.cfg.codec = codecGbc := by
  decide
/-- EndToken, clause by clause: with bytes after it (95 V3). -/
theorem witness_end :
    (running [0x00#8, 0x40#8]).dstat = .run ∧ (running [0x00#8, 0x40#8]).atFetch ∧
    codecGbc.classOf 0x00#8 = .endToken ∧ (running [0x00#8, 0x40#8]).stream = 0x00#8 :: [0x40#8] ∧
    ∃ t, exec .endToken (running [0x00#8]) = .next t ∧ t.dstat = .ended :=
  ⟨rfl, running_atFetch _, by decide, rfl, _, rfl, rfl⟩
/-- RepeatByteToken, clause by clause. -/
theorem witness_rpb :
    ((running [0x01#8, 0x00#8]).dstat = .run ∧ 1 ≤ 2) ∧
    (∃ s : State, s.engineTurn ∧ s.ws = .pull ∧ s.dstat = .run ∧ s.tk = .rpb ∧ 0 < s.rem) ∧
    ((running [0x05#8]).atFetch ∧ codecGbc.classOf 0x05#8 = .rpb ∧ ([] : List Byte).length < codecGbc.rpbOperands ∧
      (running [0x05#8]).stream = 0x05#8 :: []) ∧
    ((running [0x05#8, 0x00#8]).atFetch ∧ [0x00#8].length = codecGbc.rpbOperands ∧
      (running [0x05#8, 0x00#8]).stream = 0x05#8 :: ([0x00#8] ++ [])) :=
  ⟨by decide, ⟨{ running [] with tk := .rpb, rem := 1 }, ⟨rfl, .inl rfl⟩, by decide⟩,
    ⟨running_atFetch _, by decide, by decide, rfl⟩, running_atFetch _, by decide, rfl⟩
/-- RepeatPatternToken, RepeatPatternCompletes: offset equal to the output (95 V9), one more (V12), none, and one more
than a token can carry. -/
theorem witness_rpp_fetch :
    ((running' [] [1#8, 2#8, 3#8]).dstat = .run ∧ 1 ≤ 3 ∧ 3 ≤ State.reset.cfg.codec.maxOffset ∧
      3 ≤ (running' [] [1#8, 2#8, 3#8]).n ∧ (running' [] [1#8, 2#8, 3#8]).hist[3 - 3]? = some 1#8) ∧
    (running' [] [1#8, 2#8, 3#8]).n < 4 ∧ State.reset.cfg.codec.maxOffset < 32769 := by
  decide
/-- RepeatPatternToken, the fetch, the bytes after the first, and the missing distance bytes (95 V10, V18, V19). -/
theorem witness_rpp_rest :
    ((running [0x83#8, 0xFF#8, 0xFF#8, 0x00#8]).atFetch ∧ codecGbc.classOf 0x83#8 = .rpp ∧
      [0xFF#8, 0xFF#8].length = codecGbc.rppOperands ∧
      (running [0x83#8, 0xFF#8, 0xFF#8, 0x00#8]).stream = 0x83#8 :: ([0xFF#8, 0xFF#8] ++ [0x00#8])) ∧
    (∃ s : State, s.engineTurn ∧ s.ws = .pull ∧ s.dstat = .run ∧ s.tk = .rpp ∧ 0 < s.rem ∧ 1 ≤ s.off ∧
      s.off ≤ s.n ∧ s.hist[s.n - s.off]? = some 7#8) ∧
    (∀ lo ∈ ([[], [0xFF#8]] : List (List Byte)), (running (0x80#8 :: lo)).atFetch ∧
      codecGbc.classOf 0x80#8 = .rpp ∧ lo.length < codecGbc.rppOperands ∧
      (running (0x80#8 :: lo)).stream = 0x80#8 :: lo) := by
  refine ⟨⟨running_atFetch _, by decide, rfl, rfl⟩,
    ⟨{ running' [] [7#8] with tk := .rpp, rem := 1 }, ⟨rfl, .inl rfl⟩, by decide⟩, fun lo h => ?_⟩
  exact ⟨running_atFetch _, by decide, by revert lo; decide, rfl⟩
/-- LiteralToken, clause by clause. -/
theorem witness_lit :
    ((running [0xC0#8, 0x11#8]).src[0 + (1 + codecGbc.litOperands)]? = some 0x11#8) ∧
    ((running [0xC0#8]).src[0 + (1 + codecGbc.litOperands)]? = none) ∧
    ((running [0xC0#8]).atFetch ∧ codecGbc.classOf 0xC0#8 = .lit ∧
      ([] : List Byte).length = codecGbc.litOperands ∧ (running [0xC0#8]).stream = 0xC0#8 :: ([] ++ [])) ∧
    (∃ s : State, s.engineTurn ∧ s.ws = .pull ∧ s.dstat = .run ∧ s.tk = .lit ∧ 0 < s.rem ∧
      s.src[s.sc]? = some 0x20#8) ∧
    (∃ s : State, s.engineTurn ∧ s.ws = .pull ∧ s.dstat = .run ∧ s.tk = .lit ∧ 0 < s.rem ∧
      s.src[s.sc]? = none) :=
  ⟨rfl, rfl, ⟨running_atFetch _, by decide, rfl, rfl⟩,
    ⟨{ running [0xC1#8, 0x10#8, 0x20#8] with sc := 2, tk := .lit, rem := 1 }, ⟨rfl, .inl rfl⟩, by decide⟩,
    ⟨{ running [0xC1#8, 0x10#8] with sc := 2, tk := .lit, rem := 1 }, ⟨rfl, .inl rfl⟩, by decide⟩⟩
/-- UnknownIndicator: with an End after it and as the last byte (95 V26, V24). -/
theorem witness_unk :
    ∀ rest ∈ ([[], [0x00#8]] : List (List Byte)), (running (0x40#8 :: rest)).atFetch ∧
      codecGbc.classOf 0x40#8 = .unknown ∧ (running (0x40#8 :: rest)).stream = 0x40#8 :: rest :=
  fun _ _ => ⟨running_atFetch _, by decide, rfl⟩
/-- MissingIndicator (95 V2). -/
theorem witness_empty_stream : (running []).atFetch ∧ (running []).stream = [] := ⟨running_atFetch _, rfl⟩
/-- TokenFrame: one next state for each token, in both phases it can lead to. -/
theorem witness_token_frame :
    (∃ t, exec .endToken (running []) = .next t ∧ t.ws = .done) ∧
    (∃ t, exec (.unk 0x40#8) (running []) = .next t ∧ t.ws = .done) ∧
    (∃ t, exec (.rpb 1#8 2) (running []) = .next t ∧ t.ws = .gate) ∧
    (∃ t, exec (.rpp 1 1) (running' [] [1#8]) = .next t ∧ t.ws = .gate) ∧
    (∃ t, exec (.lit 1) (running [0xC0#8, 1#8]) = .next t ∧ t.ws = .gate) :=
  ⟨⟨_, rfl, rfl⟩, ⟨_, rfl, rfl⟩, ⟨_, rfl, rfl⟩, ⟨_, rfl, rfl⟩, ⟨_, rfl, rfl⟩⟩
/-- NoStartWhileBusy, StartRefusals. -/
theorem witness_refusals :
    (Instr.dbuf (args [] 0 0)).isToken = false ∧ (running []).busy = true ∧ State.reset.busy = false ∧
    historyFits { Config.gameBoy with histCap := some 32767 } = false ∧
    historyFits { Config.gameBoy with histCap := some 32768 } = true ∧
    (Instr.dbkg (args [] 0 256)).wellFormed Config.gameBoy = false := by
  decide
/-- WindowIsBackground. -/
theorem witness_no_host_turn : ¬ (running []).hostTurn := by
  rintro (⟨h, hh⟩ | ⟨hb, -⟩)
  · cases hh
  · cases hb
/-- EngineSteps: both sides. -/
theorem witness_engine_steps :
    State.reset.host = [] ∧ step State.reset = .fault .noEnabledStep ∧ (running []).host = [] ∧
    (running []).busy = true :=
  ⟨rfl, rfl, rfl, rfl⟩
/-- PullAnswers, ErrorEntry, clause by clause: with a fetch. -/
theorem witness_pull_answers :
    (∃ t, decodeNext (running [0x01#8, 9#8]) = (.byte 9#8, t)) ∧
    (∃ t, decodeNext (running [0x00#8]) = (.endOfStream, t)) ∧
    (∃ t, decodeNext (running [0x80#8, 0xFF#8, 0x7F#8]) = (.error .malformed, t)) ∧
    (∃ t, decodeNext (running [0x40#8]) = (.error .unknown, t)) ∧
    (∃ t, decodeNext (running []) = (.error .truncated, t)) ∧
    (∃ u, step (running [0x00#8]) = .next u ∧ u.ws = .done ∧ u.host = []) ∧
    ∀ src, (running src).engineTurn ∧ (running src).ws = .pull :=
  ⟨⟨_, rfl⟩, ⟨_, rfl⟩, ⟨_, rfl⟩, ⟨_, rfl⟩, ⟨_, rfl⟩, ⟨_, rfl, rfl, rfl⟩, fun _ => ⟨running_turn _, rfl⟩⟩
/-- BufferWrite, WriteFrame: at the last address. -/
theorem witness_buffer_write :
    (atGate 0x55#8 0xFFFF).engineTurn ∧ (atGate 0x55#8 0xFFFF).ws = .gate ∧ (atGate 0x55#8 0xFFFF).dk = .buf ∧
    0xFFFF + 0 < 2 ^ Config.gameBoy.addrBits ∧ (atGate 0x55#8 0xFFFF).inSource 0xFFFF = false ∧
    (atGate 0x55#8 0xFFFF).inTables 0xFFFF = false ∧ ∃ t, step (atGate 0x55#8 0xFFFF) = .next t :=
  ⟨atGate_turn _ _, rfl, rfl, by decide, rfl, by decide, _, rfl⟩
/-- BufferWrite, WriteFrame: the last address of a tile table, and the first beyond the tables. -/
theorem witness_buffer_write_in_table :
    (atGate 0x55#8 0x97FF).engineTurn ∧ (atGate 0x55#8 0x97FF).ws = .gate ∧ (atGate 0x55#8 0x97FF).dk = .buf ∧
    0x97FF + 0 < 2 ^ Config.gameBoy.addrBits ∧ (atGate 0x55#8 0x97FF).inSource 0x97FF = false ∧
    (atGate 0x55#8 0x97FF).inTables 0x97FF = true ∧ (atGate 0x55#8 0x9800).inTables 0x9800 = false ∧
    ∃ t, step (atGate 0x55#8 0x97FF) = .next t :=
  ⟨atGate_turn _ _, rfl, rfl, by decide, rfl, by decide, by decide, _, rfl⟩
/-- GatedWrite, WriteFrame: the last slot of the table in an allowed slot, and a forbidden one. -/
theorem witness_gated_write :
    (atTileGate 1#8 127 [.vblank]).engineTurn ∧
    tableAllows Config.gameBoy.bg (atTileGate 1#8 127 [.vblank]).nextAnswer = true ∧
    127 < Config.gameBoy.bg.tiles ∧ 0x9000 + 127 * 16 + 0 < 2 ^ Config.gameBoy.addrBits ∧
    (atTileGate 1#8 127 [.vblank]).inSource 0x97F0 = false ∧
    (atTileGate 1#8 127 [.vblank]).tileRefusal? .bg = none ∧
    tableAllows Config.gameBoy.bg (atTileGate 1#8 127 [.pixelTransfer]).nextAnswer = false :=
  ⟨atTileGate_turn _ _ _, by decide, by decide, by decide, rfl, by decide, by decide⟩
/-- CursorAdvance: byte 15 and byte 14 of a tile. -/
theorem witness_cursor :
    ∀ k ∈ ([14, 15] : List Nat), ∃ s t : State, s.engineTurn ∧ s.ws = .gate ∧ s.dk = .tiles .bg ∧ s.bo = k ∧
      tableAllows (s.cfg.table .bg) s.nextAnswer = true ∧ step s = .next t := fun k hk => by
  simp only [List.mem_cons, List.not_mem_nil, or_false] at hk
  rcases hk with rfl | rfl
  · exact ⟨{ atTileGate 1#8 0 [.hblank] with bo := 14 }, _, ⟨rfl, .inl rfl⟩, rfl, rfl, rfl, by decide, rfl⟩
  · exact ⟨{ atTileGate 1#8 0 [.hblank] with bo := 15 }, _, ⟨rfl, .inl rfl⟩, rfl, rfl, rfl, by decide, rfl⟩
/-- AnswersAreModes: the default instance with 95 E2's script, and with none. -/
theorem witness_modes :
    Config.gameBoy.modes ≠ [] ∧ (∀ m ∈ (atTileGate 1#8 0 []).oracle, m ∈ Config.gameBoy.modes) ∧
    ∀ m ∈ (atTileGate 1#8 0 [.attributeSearch, .hblank, .pixelTransfer]).oracle, m ∈ Config.gameBoy.modes := by
  decide
/-- AnswersConsumed, its second clause: a slot of a tile command. -/
theorem witness_slot :
    (atTileGate 1#8 0 [.hblank]).engineTurn ∧ (atTileGate 1#8 0 [.hblank]).ws = .gate ∧
    (atTileGate 1#8 0 [.hblank]).dk ≠ .buf ∧ ∃ t, step (atTileGate 1#8 0 [.hblank]) = .next t :=
  ⟨atTileGate_turn _ _ _, rfl, by decide, _, rfl⟩
/-- CountOfWrites, SameStreamSameOutput: a Start, and a write that is the engine's. -/
theorem witness_count :
    (∃ t, exec (.dwin (args [] 0 0)) State.reset = .next t) ∧
    (∃ t, step (atGate 1#8 0) = .next t ∧ t.wn = 1) ∧ ¬ (atGate 1#8 0).hostTurn := by
  refine ⟨⟨_, rfl⟩, ⟨_, rfl, rfl⟩, ?_⟩
  rintro (⟨h, hh⟩ | ⟨hb, -⟩)
  · cases hh
  · cases hb
/-- OutOfRangeRefused: the first address and the first slot outside, and a slot whose address has no cell. -/
theorem witness_out_of_range :
    (∃ s : State, s.engineTurn ∧ s.ws = .gate ∧ s.dk = .buf ∧ 2 ^ s.cfg.addrBits = s.dst0 + s.wn) ∧
    (∃ s : State, s.engineTurn ∧ s.ws = .gate ∧ s.dk = .tiles .bg ∧
      tableAllows s.cfg.bg s.nextAnswer = true ∧ s.cfg.bg.tiles = s.ti) ∧
    (∃ s : State, s.engineTurn ∧ s.ws = .gate ∧ s.dk = .tiles .bg ∧
      tableAllows s.cfg.bg s.nextAnswer = true ∧ s.ti < s.cfg.bg.tiles ∧ 2 ^ s.cfg.addrBits = s.tileAddr .bg) :=
  ⟨⟨atGate 1#8 0x10000, ⟨rfl, .inl rfl⟩, rfl, rfl, by decide⟩,
    ⟨atTileGate 1#8 128 [.hblank], ⟨rfl, .inl rfl⟩, rfl, rfl, by decide, by decide⟩,
    ⟨{ atTileGate 1#8 112 [.hblank] with
        cfg := { Config.gameBoy with bg := { Config.gameBoy.bg with base := 0xF900 } } },
      ⟨rfl, .inl rfl⟩, rfl, rfl, by decide, by decide, by decide⟩⟩
/-- OverlapRefused: the stream lies on the last and on the first byte of what would be written. -/
theorem witness_overlap :
    ({ atGate 1#8 0xC002 with srcBase := some 0xC000 } : State).inSource 0xC002 = true ∧
    ({ atTileGate 1#8 0 [.hblank] with srcBase := some 0x9000 } : State).inSource 0x9000 = true ∧
    ({ atTileGate 1#8 0 [.hblank] with srcBase := some 0x9000 } : State).tileAddr .bg = 0x9000 ∧
    ({ atGate 1#8 0xC003 with srcBase := some 0xC000 } : State).inSource 0xC003 = false := by
  decide
/-- OnlyWritesStore, AnswersConsumed, ParametersFixed, CursorNeverRewinds, StepKeepsCanonicalMemory, WorkShrinks: a
write, a pull, a forbidden slot. -/
theorem witness_next :
    (∃ t, step (atGate 1#8 0) = .next t) ∧ (∃ t, step (running [0x01#8, 7#8]) = .next t) ∧
    (∃ t, step (atTileGate 1#8 0 [.pixelTransfer]) = .next t) ∧ ¬ (running [0x01#8, 7#8]).hostTurn ∧
    Memory.wf (running [0x01#8, 7#8]).mem ∧ (running [0x01#8, 7#8]).engineTurn ∧
    (running [0x01#8, 7#8]).cfg.codec.Contract := by
  refine ⟨⟨_, rfl⟩, ⟨_, rfl⟩, ⟨_, rfl⟩, ?_, Memory.wf_nil, running_turn _, codecGbc_contract⟩
  rintro (⟨h, hh⟩ | ⟨hb, -⟩)
  · cases hh
  · cases hb
/-- OutcomeFrozen: a pull after an outcome. -/
theorem witness_outcome :
    ∃ s t : State, step s = .next t ∧ ¬ s.hostTurn ∧ s.dstat ≠ .run := by
  refine ⟨{ running [] with dstat := .ended }, _, rfl, ?_, by decide⟩
  rintro (⟨h, hh⟩ | ⟨hb, -⟩)
  · cases hh
  · cases hb
/-- StatusKept: a host that waits on a block that has ended. -/
theorem witness_status :
    ∃ s t : State, step s = .next t ∧ ¬ s.hostTurn ∧ s.busy = false ∧ s.status = .truncated := by
  refine ⟨{ running [] with ws := .done, status := .truncated, host := [.wait] }, _, rfl, ?_, rfl, rfl⟩
  rintro (⟨h, hh⟩ | ⟨-, r, h, hh⟩) <;> cases hh
/-- NoRollback: a step that ends a command. -/
theorem witness_end_step :
    ∃ t, step (running' [0x40#8] [1#8]) = .next t ∧ (running' [0x40#8] [1#8]).ws ≠ .done ∧ t.ws = .done :=
  ⟨_, rfl, by decide, rfl⟩
/-- PullIndependent: a buffer and a tile command on the same decoder. -/
theorem witness_pull_independent :
    ∃ s u t v : State, SameDecoding s u ∧ s.engineTurn ∧ u.engineTurn ∧ s.ws = .pull ∧ u.ws = .pull ∧
      step s = .next t ∧ step u = .next v ∧ s.dk ≠ u.dk :=
  ⟨running [0x01#8, 7#8], { running [0x01#8, 7#8] with dk := .tiles .spr, oracle := [.hblank] }, _, _,
    ⟨rfl, rfl, rfl, rfl, rfl, fun _ _ => rfl, fun _ _ => rfl, rfl, rfl⟩, ⟨rfl, .inl rfl⟩, ⟨rfl, .inl rfl⟩, rfl, rfl, rfl, rfl, by decide⟩
/-- SameStreamSameOutput: `LIT 55 ; END` started into a buffer, and into sprite tiles through a forbidden slot. -/
theorem witness_same_stream :
    ∃ s u t v : State,
      exec (.dbuf (args [0xC0#8, 0x55#8, 0x00#8] 0xC000 0)) State.reset = .next s ∧
      exec (.dspr (args [0xC0#8, 0x55#8, 0x00#8] 0 1))
        { State.reset with oracle := [.pixelTransfer, .hblank], draws := 9 } = .next u ∧
      SameDecoding s u ∧ s.ws = .pull ∧ u.ws = .pull ∧ s.host = [] ∧ u.host = [] ∧
      Reaches s 3 t ∧ Reaches u 4 v ∧ t.ws = .done ∧ v.ws = .done ∧ t.hist = [0x55#8] :=
  ⟨_, _, _, _, rfl, rfl, ⟨rfl, rfl, rfl, rfl, rfl, nofun, nofun, rfl, rfl⟩, rfl, rfl, rfl, rfl, rfl, rfl, rfl, rfl, rfl⟩
/-- SameStreamSameOutput, its last clause: an ended buffer command that wrote one byte, outside the tables. -/
theorem witness_buffer_holds :
    Inv { atGate 0x55#8 0xC000 with
      sc := 3, dstat := .ended, ws := .done, wn := 1, status := .ok, mem := [(0xC000, 0x55#8)]
      trace := [{ addr := 0xC000, byte := 0x55#8, mode := none }] } ∧
    State.reset.inTables (0xC000 + 0) = false :=
  ⟨{ decoder := ⟨gameBoy_lawful, by decide, by decide, by decide, by decide, by decide, by decide⟩
     writer := ⟨nofun, nofun, fun _ => .inl ⟨rfl, rfl⟩, fun _ => rfl, nofun, fun _ => rfl, nofun⟩
     trace := ⟨rfl, rfl, by decide, nofun⟩
     memory := ⟨by decide, by decide, fun k hk _ => by
       have : k = 0 := by simp only at hk; omega
       subst this; rfl⟩ }, by decide⟩
/-- OverlappingCopy: offset 1, six bytes. -/
theorem witness_overlapping :
    ∃ s : State, s.dstat = .run ∧ s.tk = .rpp ∧ 1 ≤ s.off ∧ s.off ≤ s.n ∧ 6 ≤ s.rem :=
  ⟨{ running' [] [7#8] with tk := .rpp, rem := 6 }, by decide⟩
/-- ForbiddenWaits, WriteInAllowedSlot: the script of 95 E2 up to its first write. -/
theorem witness_waits :
    (atTileGate 0xA1#8 0 ([.attributeSearch, .attributeSearch] ++ .hblank :: [.hblank])).ws = .gate ∧
    (∀ m ∈ ([.attributeSearch, .attributeSearch] : List Mode), tableAllows Config.gameBoy.bg m = false) ∧
    tableAllows Config.gameBoy.bg .hblank = true ∧
    (atTileGate 0xA1#8 0 ([.attributeSearch, .attributeSearch] ++ .hblank :: [.hblank])).tileRefusal? .bg = none := by
  decide
/-- StepKeepsDecoderInv, StepKeepsInv, NoBrokenPrecondition: a running command about to fetch, and one at its
write. -/
theorem witness_inv_pull : Inv (running [0x01#8, 7#8, 0x00#8]) where
  decoder := ⟨gameBoy_lawful, by decide, by decide, by decide, by decide, by decide, by decide⟩
  writer := ⟨by decide, by decide, nofun, by decide, by decide, by decide, nofun⟩
  trace := ⟨rfl, rfl, fun _ => nofun, nofun⟩
  memory := ⟨Memory.wf_nil, nofun, nofun⟩
theorem witness_inv_gate : Inv (atTileGate 7#8 2 [.hblank]) where
  decoder := ⟨gameBoy_lawful, by decide, by decide, by decide, by decide, by decide, by decide⟩
  writer := ⟨by decide, by decide, nofun, by decide, fun _ => ⟨rfl, rfl⟩, by decide, fun _ _ h => by cases h; decide⟩
  trace := ⟨rfl, rfl, nofun, fun _ _ => nofun⟩
  memory := ⟨Memory.wf_nil, nofun, nofun⟩
theorem witness_inv_steps :
    (∃ t, step (running [0x01#8, 7#8, 0x00#8]) = .next t) ∧ ∃ t, step (atTileGate 7#8 2 [.hblank]) = .next t :=
  ⟨⟨_, rfl⟩, _, rfl⟩
/-- BufferCommandEnds, with `witness_inv_pull`. -/
theorem witness_buffer_command :
    (running [0x01#8, 7#8, 0x00#8]).busy = true ∧ (running [0x01#8, 7#8, 0x00#8]).host = [] ∧
    (running [0x01#8, 7#8, 0x00#8]).dk = .buf ∧ (running [0x01#8, 7#8, 0x00#8]).srcBase = none ∧
    0xC000 + Config.gameBoy.codec.maxCount * (running [0x01#8, 7#8, 0x00#8]).srcLen ≤ 2 ^ Config.gameBoy.addrBits := by
  decide
/-- StepRunsToken. -/
theorem witness_step_token :
    (running [0x01#8, 7#8, 0x00#8]).atFetch ∧
    decodeWith codecGbc (running [0x01#8, 7#8, 0x00#8]).stream = .token (.rpb 7#8 2) [0x00#8] :=
  ⟨running_atFetch _, rfl⟩
/-- StepRunsCommand, HostLetsEngineStep, ResetStep: each move of the host, in a busy block and in one that is
not. -/
theorem witness_host_moves :
    (∃ (s : State) (r : Request), s.host = [.start r] ∧ s.busy = false) ∧
    (∃ (s : State) (r : Request), s.host = [.start r] ∧ s.busy = true) ∧
    (∃ s : State, s.host = [.wait] ∧ s.busy = true) ∧ (∃ s : State, s.host = [.wait] ∧ s.busy = false) ∧
    (∃ s : State, s.host = [.reset] ∧ s.busy = true) :=
  ⟨⟨State.reset.atPort { cmd := 0#2, args := args [] 0 0 }, _, rfl, rfl⟩,
    ⟨{ running [] with host := [.start { cmd := 0#2, args := args [] 0 0 }] }, _, rfl, rfl⟩,
    ⟨{ running [] with host := [.wait] }, rfl, rfl⟩, ⟨{ State.reset with host := [.wait] }, rfl, rfl⟩,
    ⟨{ running [] with host := [.reset] }, rfl, rfl⟩⟩

/-! ## Placing an instruction -/

/-- `withFetchWord` makes the next step run the word: a token of the stream, and a command. -/
theorem test_fetch_word :
    step (State.reset.withFetchWord 8 0x40) = exec (.unk 0x40#8) (State.reset.withFetchWord 8 0x40) ∧
    (nextOf (step (State.reset.withFetchWord 8 3))).map (fun t => (t.dk, t.ws)) =
      some (.tiles .spr, .pull) :=
  ⟨rfl, by decide⟩

end Sys2Proof.Tests
end

section
/-!
What no step of the engine changes: the machine's parameters, and what the host gave the running command
(00_scope R7).
-/
namespace Sys2Proof.Machine

/-- The machine's parameters and the arguments of the command are those of `s` (00_scope R7, 10_state R22, R23,
R33). -/
structure SameParameters (s t : State) : Prop where
  cfg : t.cfg = s.cfg
  arguments : t.src = s.src ∧ t.srcBase = s.srcBase ∧ t.cmd = s.cmd ∧ t.dst0 = s.dst0 ∧ t.tile0 = s.tile0 ∧ t.dk = s.dk

theorem SamePlace.sameParameters {s t : State} (h : SamePlace s t) : SameParameters s t := by
  obtain ⟨⟨hcfg, -⟩, ⟨hsrc, hbase, hcmd, hdst, htile⟩, ⟨hdk, -⟩, -⟩ := h
  exact ⟨hcfg, hsrc, hbase, hcmd, hdst, htile, hdk⟩

theorem bufferWrite_sameParameters {s t : State} (h : bufferWrite s = .next t) : SameParameters s t := by
  obtain ⟨-, rfl⟩ := bufferWrite_next h
  constructor <;> simp

theorem gatedWrite_sameParameters {tb : TileTable} {s t : State} (h : gatedWrite tb s = .next t) :
    SameParameters s t := by
  obtain ⟨-, -, rfl⟩ | ⟨-, rfl⟩ := gatedWrite_next h
  · constructor <;> simp
  · constructor <;> simp

/-- The engine's step, by phase: a pull, a buffer write, or a slot of a gated write. -/
theorem engineStep_sameParameters {s t : State} (h : engineStep s = .next t) : SameParameters s t := by
  cases hw : s.ws with
  | idle => rw [engineStep_idle (State.not_busy_iff.2 (.inl hw))] at h; cases h
  | done => rw [engineStep_idle (State.not_busy_iff.2 (.inr hw))] at h; cases h
  | pull => exact (engineStep_pull hw h).1.sameParameters
  | gate =>
    obtain hk | ⟨tb, hk⟩ := DestKind.cases_eq s.dk
    · exact bufferWrite_sameParameters (engineStep_buffer hw hk ▸ h)
    · exact gatedWrite_sameParameters (engineStep_tiles hw hk ▸ h)

/-- A step that is not a reset or an accepted Start. -/
theorem step_sameParameters {s t : State} (h : step s = .next t) (hn : ¬ s.hostTurn) : SameParameters s t := by
  obtain ⟨hs, hh, -⟩ | ⟨r, hs, hh, hb, -⟩ | ⟨hs, -, -, rfl⟩ | ⟨-, hs, he, -⟩ := step_next h
  · exact absurd (.inl ⟨hs, hh⟩) hn
  · exact absurd (.inr ⟨hb, r, hs, hh⟩) hn
  · exact ⟨rfl, rfl, rfl, rfl, rfl, rfl, rfl⟩
  · obtain ⟨hcfg, harg⟩ := engineStep_sameParameters he
    exact ⟨hcfg, harg⟩

/-- Neither a reset nor a Start changes the machine's parameters. -/
theorem step_cfg_of_hostTurn {s t : State} (h : step s = .next t) (ht : s.hostTurn) : t.cfg = s.cfg := by
  obtain ⟨hs, hh⟩ | ⟨hb, r, hs, hh⟩ := ht
  · rw [step_reset hh] at h
    cases h
    simp
  · rw [step_start hh hb] at h
    obtain ⟨-, dk, rfl, -⟩ := exec_request_next h
    simp

/-- Settles O34: the host's moves keep the machine's parameters, and every other step keeps the command too. -/
theorem parametersFixed : Obligations.ParametersFixed := by
  unfold Obligations.ParametersFixed
  intro s t h
  have hkeep := step_sameParameters h
  refine ⟨?_, fun hn => (hkeep hn).arguments⟩
  by_cases ht : s.hostTurn
  · exact step_cfg_of_hostTurn h ht
  · exact (hkeep ht).cfg

end Sys2Proof.Machine
end

section
/-!
What the write count counts: it is 0 when a command starts and grows with the trace, one event at a time
(10_state R35).
-/
namespace Sys2Proof.Machine

/-- Between the two states nothing was written, or one byte: for the buffer at the address that the count gives
(10_state R35). -/
def CountsWrites (s t : State) : Prop :=
  (t.wn = s.wn ∧ t.trace = s.trace) ∨
  (t.wn = s.wn + 1 ∧ ∃ e, t.trace = s.trace ++ [e] ∧ (s.dk = .buf → e.addr = s.dst0 + s.wn))

theorem SamePlace.countsWrites {s t : State} (h : SamePlace s t) : CountsWrites s t := by
  obtain ⟨-, -, ⟨-, -, -, hwn⟩, -, htrace⟩ := h
  exact .inl ⟨hwn, htrace⟩

theorem bufferWrite_countsWrites {s t : State} (h : bufferWrite s = .next t) : CountsWrites s t := by
  obtain ⟨-, rfl⟩ := bufferWrite_next h
  exact .inr ⟨rfl, _, rfl, fun _ => rfl⟩

/-- A slot writes a byte of a tile table, or spins; the address is not the buffer's. -/
theorem gatedWrite_countsWrites {tb : TileTable} {s t : State} (hk : s.dk = .tiles tb)
    (h : gatedWrite tb s = .next t) : CountsWrites s t := by
  obtain ⟨-, -, rfl⟩ | ⟨-, rfl⟩ := gatedWrite_next h
  · refine .inr ⟨by simp, _, rfl, fun hbuf => ?_⟩
    rw [hk] at hbuf
    cases hbuf
  · exact .inl ⟨by simp, by simp⟩

/-- The engine's step, by phase: a pull, a buffer write, or a slot of a gated write. -/
theorem engineStep_countsWrites {s t : State} (h : engineStep s = .next t) : CountsWrites s t := by
  cases hw : s.ws with
  | idle => rw [engineStep_idle (State.not_busy_iff.2 (.inl hw))] at h; cases h
  | done => rw [engineStep_idle (State.not_busy_iff.2 (.inr hw))] at h; cases h
  | pull => exact (engineStep_pull hw h).1.countsWrites
  | gate =>
    obtain hk | ⟨tb, hk⟩ := DestKind.cases_eq s.dk
    · exact bufferWrite_countsWrites (engineStep_buffer hw hk ▸ h)
    · exact gatedWrite_countsWrites hk (engineStep_tiles hw hk ▸ h)

/-- A step that is not a reset or an accepted Start. -/
theorem step_countsWrites {s t : State} (h : step s = .next t) (hn : ¬ s.hostTurn) : CountsWrites s t := by
  obtain ⟨hs, hh, -⟩ | ⟨r, hs, hh, hb, -⟩ | ⟨hs, -, -, rfl⟩ | ⟨-, hs, he, -⟩ := step_next h
  · exact absurd (.inl ⟨hs, hh⟩) hn
  · exact absurd (.inr ⟨hb, r, hs, hh⟩) hn
  · exact .inl ⟨rfl, rfl⟩
  · have hcount : CountsWrites { s with host := hs } t := engineStep_countsWrites he
    exact hcount

/-- An instruction that is no token starts a command (41 R161 to R165). -/
theorem exec_command_next {i : Instr} {s t : State} (hi : i.isToken = false) (h : exec i s = .next t) :
    ∃ c dk a, t = s.startWith c dk a := by
  have started {c dk a} (h : start c dk a s = .next t) : ∃ c dk a, t = s.startWith c dk a := by
    obtain ⟨-, -, -, ht⟩ := start_next h
    exact ⟨c, dk, a, ht⟩
  cases i with
  | endToken | rpb | unk | rpp | lit => cases hi
  | dbuf | dbkg | dwin | dspr => exact started h

/-- Settles O27: a Start clears count and trace, and a step that is not the host's adds to both or to neither. -/
theorem countOfWrites : Obligations.CountOfWrites := by
  unfold Obligations.CountOfWrites
  refine ⟨fun i s t hi h => ?_, fun _ _ => step_countsWrites⟩
  obtain ⟨c, dk, a, rfl⟩ := exec_command_next hi h
  simp

end Sys2Proof.Machine
end

section
/-!
What a write does to the cursor of its destination (41 R169, R170, R174).
-/
namespace Sys2Proof.Machine

/-- A buffer write counts the byte and leaves the tile cursor (41 R169). -/
theorem bufferWrite_cursor {s t : State} (h : bufferWrite s = .next t) :
    t.wn = s.wn + 1 ∧ t.bo = s.bo ∧ t.ti = s.ti := by
  obtain ⟨-, rfl⟩ := bufferWrite_next h
  simp

/-- A slot that allows the write advances the cursor, into the next tile where this one is full (41 R174). -/
theorem gatedWrite_cursor {tb : TileTable} {s t : State} (ha : tableAllows (s.cfg.table tb) s.nextAnswer = true)
    (h : gatedWrite tb s = .next t) :
    t.wn = s.wn + 1 ∧
    (s.bo + 1 = (s.cfg.table tb).tileBytes → t.bo = 0 ∧ t.ti = s.ti + 1) ∧
    (s.bo + 1 ≠ (s.cfg.table tb).tileBytes → t.bo = s.bo + 1 ∧ t.ti = s.ti) := by
  obtain ⟨-, -, rfl⟩ | ⟨hforbid, -⟩ := gatedWrite_next h
  · refine ⟨by simp, fun hfull => ?_, fun hroom => ?_⟩
    · simp [hfull]
    · simp [hroom]
  · rw [ha] at hforbid
    cases hforbid

/-- Settles O26: the step of a busy block in `GATE` is the write of its destination. -/
theorem cursorAdvance : Obligations.CursorAdvance := by
  unfold Obligations.CursorAdvance
  intro s t hturn hw h
  rw [step_engineTurn hturn] at h
  exact ⟨fun hk => bufferWrite_cursor (engineStep_buffer hw hk ▸ h),
    fun tb hk ha => gatedWrite_cursor ha (engineStep_tiles hw hk ▸ h)⟩

end Sys2Proof.Machine
end

section
/-!
The pull step by the answer of `decodeNext`, and the block after its command has ended (41 R167, R168).
-/
namespace Sys2Proof.Machine

theorem step_pull_answer {s t : State} {a : Answer} (hturn : s.engineTurn) (hw : s.ws = .pull)
    (h : decodeNext s = (a, t)) : step s = answerPull (a, t) := by
  rw [step_pull hturn hw, h]

/-- A block whose command has ended has no step of its own (41 R167). -/
theorem step_done {s : State} (hw : s.ws = .done) (hh : s.host = []) : step s = .fault .noEnabledStep := by
  rw [step_quiet hh, engineStep_idle (State.not_busy_iff.2 (.inr hw))]

/-- Settles O22: the step is the writer's taking of the answer, and every pull leaves memory and trace. -/
theorem pullAnswers : Obligations.PullAnswers := by
  unfold Obligations.PullAnswers
  intro s t hturn hw
  refine ⟨fun b => step_pull_answer hturn hw, step_pull_answer hturn hw, step_pull_answer hturn hw,
    step_pull_answer hturn hw, step_pull_answer hturn hw, fun u h => ?_⟩
  rw [step_engineTurn hturn] at h
  obtain ⟨-, -, ⟨-, -, -, hwn⟩, hmem, htrace⟩ := (engineStep_pull hw h).1
  exact ⟨hmem, htrace, hwn, step_done⟩

end Sys2Proof.Machine
end

section
/-!
The latched selector: a Start sets it, and no step of the engine reads it (41 R163, R165).
-/
namespace Sys2Proof.Machine

/-- The state with another selector latched (10_state R23). -/
def State.withSelector (c : BitVec 2) (s : State) : State := { s with cmd := c }

/-- Two Starts that differ in the selector only differ in the selector latched (41 R165). -/
theorem start_selector (c d : BitVec 2) (dk : DestKind) (a : CmdArgs) (s : State) :
    start c dk a s = mapNext (State.withSelector c) (start d dk a s) := by
  unfold start
  split
  · rfl
  · split
    · rfl
    · split <;> rfl

/-- The decoder does not read the selector (40 R120). -/
theorem withSelector_leavesDecoder (c : BitVec 2) : LeavesDecoder (State.withSelector c) where
  codec _ := rfl
  dstat _ := rfl
  rem _ := rfl
  tk _ := rfl
  val _ := rfl
  off _ := rfl
  hist _ := rfl
  src _ := rfl
  sc _ := rfl
  ws _ := rfl
  consume _ _ := rfl
  append _ _ := rfl
  raise _ _ := rfl
  fetch i s := by
    cases i with
    | rpp o n =>
      exact fetchRpp_commutes (f := State.withSelector c) (fun _ => rfl) (fun _ => rfl) (fun _ _ => rfl)
        (fun _ _ => rfl) (fun _ _ _ => rfl) o n s
    | endToken | rpb | unk | lit | dbuf | dbkg | dwin | dspr => rfl
  hold _ _ := rfl
  finish _ _ := rfl

theorem bufferWrite_withSelector (c : BitVec 2) (s : State) :
    bufferWrite (s.withSelector c) = mapNext (State.withSelector c) (bufferWrite s) := by
  have href : (s.withSelector c).bufferRefusal? = s.bufferRefusal? := rfl
  unfold bufferWrite
  rw [href]
  cases s.bufferRefusal? <;> rfl

theorem tileWrite_withSelector (c : BitVec 2) (tb : TileTable) (m : Mode) (s : State) :
    tileWrite tb m (s.withSelector c) = mapNext (State.withSelector c) (tileWrite tb m s) := by
  have href : (s.withSelector c).tileRefusal? tb = s.tileRefusal? tb := rfl
  unfold tileWrite
  rw [href]
  cases s.tileRefusal? tb <;> rfl

theorem gatedWrite_withSelector (c : BitVec 2) (tb : TileTable) (s : State) :
    gatedWrite tb (s.withSelector c) = mapNext (State.withSelector c) (gatedWrite tb s) := by
  have hallow : tableAllows ((s.withSelector c).cfg.table tb) (s.withSelector c).nextAnswer =
      tableAllows (s.cfg.table tb) s.nextAnswer := rfl
  unfold gatedWrite
  rw [hallow]
  split
  · exact tileWrite_withSelector c tb s.nextAnswer s.afterQuery
  · rfl

/-- The engine's step, by phase: none, a pull, a buffer write, or a slot of a gated write. -/
theorem engineStep_withSelector (c : BitVec 2) (s : State) :
    engineStep (s.withSelector c) = mapNext (State.withSelector c) (engineStep s) := by
  cases hb : s.busy with
  | false => rw [engineStep_idle hb, engineStep_idle (s := s.withSelector c) hb]; rfl
  | true =>
    obtain hw | hw := State.busy_iff.1 hb
    · exact engineStep_pull_commutes (withSelector_leavesDecoder c) hw
    · obtain hk | ⟨tb, hk⟩ := DestKind.cases_eq s.dk
      · rw [engineStep_buffer hw hk, engineStep_buffer (s := s.withSelector c) hw hk]
        exact bufferWrite_withSelector c s
      · rw [engineStep_tiles hw hk, engineStep_tiles (s := s.withSelector c) hw hk]
        exact gatedWrite_withSelector c tb s

/-- A step that is not a reset or an accepted Start, by the host's next move. -/
theorem step_withSelector (c : BitVec 2) {s : State} (hn : ¬ s.hostTurn) :
    step (s.withSelector c) = mapNext (State.withSelector c) (step s) := by
  match hh : s.host with
  | [] =>
    rw [step_quiet hh, step_quiet (s := s.withSelector c) hh]
    exact engineStep_withSelector c s
  | .reset :: hs => exact absurd (.inl ⟨hs, hh⟩) hn
  | .start r :: hs =>
    cases hb : s.busy with
    | false => exact absurd (.inr ⟨hb, r, hs, hh⟩) hn
    | true =>
      rw [step_start_busy hh hb, step_start_busy (s := s.withSelector c) hh hb]
      exact engineStep_withSelector c s
  | .wait :: hs =>
    cases hb : s.busy with
    | false => rw [step_wait hh hb, step_wait (s := s.withSelector c) hh hb]; rfl
    | true =>
      rw [step_wait_busy hh hb, step_wait_busy (s := s.withSelector c) hh hb]
      exact engineStep_withSelector c { s with host := hs }

/-- Settles O20: both commands start on the background table, and no step after the Start reads the selector. -/
theorem windowIsBackground : Obligations.WindowIsBackground := by
  unfold Obligations.WindowIsBackground
  exact ⟨fun a s => start_selector 2#2 1#2 (.tiles .bg) a s, fun _ c hn => step_withSelector c hn⟩

end Sys2Proof.Machine
end

section
/-!
The end of a command: a pull that answers an error ends it, and no step that ends a command takes anything back
(60 R208, R209).
-/
namespace Sys2Proof.Machine

/-- A pull that ends the command produces nothing (41 R168). -/
theorem engineStep_pull_done {s t : State} (hw : s.ws = .pull) (h : engineStep s = .next t) (hd : t.ws = .done) :
    SamePlace s t ∧ t.hist = s.hist := by
  obtain ⟨hplace, hbyte | hend⟩ := engineStep_pull hw h
  · obtain ⟨hgate, -⟩ := hbyte.phase
    rw [hd] at hgate
    cases hgate
  · obtain ⟨hhist, -⟩ := hend.output
    exact ⟨hplace, hhist⟩

/-- No write step ends a command: it goes on with the next pull, or waits in its slot (41 R169, R170). -/
theorem engineStep_gate_ne_done {s t : State} (hw : s.ws = .gate) (h : engineStep s = .next t) : t.ws ≠ .done := by
  obtain hk | ⟨tb, hk⟩ := DestKind.cases_eq s.dk
  · obtain ⟨-, rfl⟩ := bufferWrite_next (engineStep_buffer hw hk ▸ h)
    nofun
  · obtain ⟨-, -, rfl⟩ | ⟨-, rfl⟩ := gatedWrite_next (engineStep_tiles hw hk ▸ h)
    · nofun
    · simp [hw]

/-- The engine's step that ends a command is a pull (41 R167, R168). -/
theorem engineStep_samePlace_of_done {s t : State} (h : engineStep s = .next t) (hd : t.ws = .done) :
    SamePlace s t := by
  cases hw : s.ws with
  | idle => rw [engineStep_idle (State.not_busy_iff.2 (.inl hw))] at h; cases h
  | done => rw [engineStep_idle (State.not_busy_iff.2 (.inr hw))] at h; cases h
  | pull => exact (engineStep_pull_done hw h hd).1
  | gate => exact absurd hd (engineStep_gate_ne_done hw h)

/-- Settles O23: the error's step is a pull that ends the command, so the decoder's state `t` before the writer takes
the error is `s` but for the decoder's own elements, and the output stays; what was produced before was written. -/
theorem errorEntry : Obligations.ErrorEntry := by
  unfold Obligations.ErrorEntry
  intro s t e hturn hw h
  have hstep : step s = .next (t.endCommand (Status.ofError e)) := step_pull_answer hturn hw h
  obtain ⟨⟨⟨-, hhost, -⟩, -, ⟨-, -, -, hwn⟩, hmem, htrace⟩, hhist⟩ :=
    engineStep_pull_done hw (step_engineTurn hturn ▸ hstep) rfl
  refine ⟨hstep, hmem, htrace, hwn, hhist, fun hh => step_done rfl (hhost.trans hh), fun hinv => ?_⟩
  have hwritten : s.wn = s.n := hinv.writer.written (by simp [hw])
  calc t.wn = s.wn := hwn
    _ = s.n := hwritten
    _ = t.n := congrArg List.length hhist.symm

/-- Settles O38: a reset leaves `IDLE`, a Start `PULL`, and a waiting host the phase, so the step is the engine's. -/
theorem noRollback : Obligations.NoRollback := by
  unfold Obligations.NoRollback
  intro s t h hs hd
  obtain ⟨_, -, rfl⟩ | ⟨_, _, -, -, he⟩ | ⟨_, -, -, rfl⟩ | ⟨-, _, he, -⟩ := step_next h
  · cases hd
  · obtain ⟨-, _, rfl, -⟩ := exec_request_next he
    cases hd
  · exact absurd hd hs
  · obtain ⟨-, -, ⟨-, -, -, hwn⟩, hmem, htrace⟩ := engineStep_samePlace_of_done he hd
    exact ⟨hmem, htrace, hwn⟩

end Sys2Proof.Machine
end

section
/-!
Each class of token and its bytes, under any codec and in the layout `CODEC_GBC`: what the encoder writes is read back,
and nothing else is read (30_encoding R91 to R96, R103).
-/
namespace Sys2Proof

/-! ### The five classes under any codec (30_encoding R91) -/

theorem decodeWith_endToken {k : Codec} {c : Byte} (rest : List Byte) (hc : k.classOf c = .endToken) :
    decodeWith k (c :: rest) = .token .endToken rest := by
  have h := decodeWith_eq (k := k) (c := c) (ops := []) rest (by rw [hc]; rfl)
  rwa [Codec.assemble, hc] at h

theorem decodeWith_unknown {k : Codec} {c : Byte} (rest : List Byte) (hc : k.classOf c = .unknown) :
    decodeWith k (c :: rest) = .token (.unk c) rest := by
  have h := decodeWith_eq (k := k) (c := c) (ops := []) rest (by rw [hc]; rfl)
  rwa [Codec.assemble, hc] at h

theorem decodeWith_rpb {k : Codec} {c : Byte} {ops : List Byte} (rest : List Byte) (hc : k.classOf c = .rpb)
    (hops : ops.length = k.rpbOperands) :
    decodeWith k (c :: (ops ++ rest)) =
      .token (.rpb (BitVec.ofNat 8 (k.rpbValue.eval c ops)) (k.rpbCount.eval c ops)) rest := by
  rw [decodeWith_eq rest (by rw [hc]; exact hops), Codec.assemble, hc]

theorem decodeWith_rpp {k : Codec} {c : Byte} {ops : List Byte} (rest : List Byte) (hc : k.classOf c = .rpp)
    (hops : ops.length = k.rppOperands) :
    decodeWith k (c :: (ops ++ rest)) = .token (.rpp (k.rppDistance.eval c ops) (k.rppCount.eval c ops)) rest := by
  rw [decodeWith_eq rest (by rw [hc]; exact hops), Codec.assemble, hc]

theorem decodeWith_lit {k : Codec} {c : Byte} {ops : List Byte} (rest : List Byte) (hc : k.classOf c = .lit)
    (hops : ops.length = k.litOperands) :
    decodeWith k (c :: (ops ++ rest)) = .token (.lit (k.litRun.eval c ops)) rest := by
  rw [decodeWith_eq rest (by rw [hc]; exact hops), Codec.assemble, hc]

/-! ### The layout `CODEC_GBC` -/

/-- Each class of `CODEC_GBC` by the fields of the byte, END before the RPB range it lies in (30_encoding R96; decision
D4): all 256 bytes. -/
theorem codecGbc_classOf_iff : ∀ c : Byte,
    (codecGbc.classOf c = .endToken ↔ c = 0#8) ∧
    (codecGbc.classOf c = .rpb ↔ kindField c = 0#2 ∧ 2 ≤ (countField c).toNat + 1) ∧
    (codecGbc.classOf c = .unknown ↔ kindField c = 1#2) ∧
    (codecGbc.classOf c = .rpp ↔ kindField c = 2#2) ∧
    (codecGbc.classOf c = .lit ↔ kindField c = 3#2) := by
  decide

/-- An RPB of count 1 would be the byte 0, which is END (30_encoding R95, R96). -/
theorem codecGbc_classOf_rpb {n : Nat} (h1 : 2 ≤ n) (h2 : n ≤ maxCount) :
    codecGbc.classOf (indicatorByte 0#2 n) = .rpb := by
  obtain ⟨-, hrpb, -⟩ := codecGbc_classOf_iff (indicatorByte 0#2 n)
  rw [hrpb, countField_indicatorByte 0#2 (by omega) h2]
  exact ⟨kindField_indicatorByte 0#2 n, h1⟩

theorem codecGbc_classOf_rpp (n : Nat) : codecGbc.classOf (indicatorByte 2#2 n) = .rpp := by
  obtain ⟨-, -, -, hrpp, -⟩ := codecGbc_classOf_iff (indicatorByte 2#2 n)
  exact hrpp.2 (kindField_indicatorByte 2#2 n)

theorem codecGbc_classOf_lit (n : Nat) : codecGbc.classOf (indicatorByte 3#2 n) = .lit := by
  obtain ⟨-, -, -, -, hlit⟩ := codecGbc_classOf_iff (indicatorByte 3#2 n)
  exact hlit.2 (kindField_indicatorByte 3#2 n)

/-- The count an indicator byte of `CODEC_GBC` carries is the one it was built with (30_encoding R92). -/
theorem gbcCount_indicatorByte (k : BitVec 2) {n : Nat} (ops : List Byte) (h1 : 1 ≤ n) (h2 : n ≤ maxCount) :
    gbcCount.eval (indicatorByte k n) ops = n := by
  rw [gbcCount_eval, countField_indicatorByte k h1 h2]

/-- Settles O1: token by token, the class of its indicator byte and what the codec assembles from its bytes. -/
theorem decodeEncodeToken : Obligations.DecodeEncodeToken := by
  unfold Obligations.DecodeEncodeToken
  intro cfg i rest htok hwf
  cases i with
  | endToken => exact decodeWith_endToken rest (by decide)
  | unk c =>
    have hkind : kindField c = 1#2 := beq_iff_eq.1 hwf
    obtain ⟨-, -, hunk, -⟩ := codecGbc_classOf_iff c
    exact decodeWith_unknown rest (hunk.2 hkind)
  | rpb v n =>
    obtain ⟨h1, h2⟩ : 2 ≤ n ∧ n ≤ maxCount := by simpa [Instr.wellFormed] using hwf
    have h := decodeWith_rpb (ops := [v]) rest (codecGbc_classOf_rpb h1 h2) rfl
    have hv : BitVec.ofNat 8 (codecGbc.rpbValue.eval (indicatorByte 0#2 n) [v]) = v := BitVec.ofNat_toNat 8 v
    have hn : codecGbc.rpbCount.eval (indicatorByte 0#2 n) [v] = n := gbcCount_indicatorByte _ _ (by omega) h2
    rwa [hv, hn] at h
  | rpp o n =>
    obtain ⟨⟨⟨h1, h2⟩, h3⟩, h4⟩ : ((1 ≤ o ∧ o ≤ 0x10000) ∧ 1 ≤ n) ∧ n ≤ maxCount := by
      simpa [Instr.wellFormed] using hwf
    have h := decodeWith_rpp (ops := distanceBytes o) rest (codecGbc_classOf_rpp n) rfl
    have hn : codecGbc.rppCount.eval (indicatorByte 2#2 n) (distanceBytes o) = n := gbcCount_indicatorByte _ _ h3 h4
    rwa [codecGbc_distanceBytes _ h1 h2, hn] at h
  | lit n =>
    obtain ⟨h1, h2⟩ : 1 ≤ n ∧ n ≤ maxCount := by simpa [Instr.wellFormed] using hwf
    have h := decodeWith_lit (ops := []) rest (codecGbc_classOf_lit n) rfl
    have hn : codecGbc.litRun.eval (indicatorByte 3#2 n) [] = n := gbcCount_indicatorByte _ _ h1 h2
    rwa [hn] at h
  | dbuf | dbkg | dwin | dspr => cases htok

/-- Settles O2: a token's word is its bytes with nothing after them, a command's is its request. -/
theorem decodeCodeEncode : Obligations.DecodeCodeEncode := by
  unfold Obligations.DecodeCodeEncode
  intro cfg i hwf
  have token (ht : i.isToken = true) : decodeCode (.stream (encodeToken i)) = some i := by
    have h := decodeEncodeToken cfg i [] ht hwf
    rw [List.append_nil] at h
    simp only [decodeCode, h]
  cases i with
  | endToken | rpb | unk | rpp | lit => exact token rfl
  | dbuf | dbkg | dwin | dspr => rfl

/-- The bytes of a distance field are the field (30_encoding R94). -/
theorem distanceBytes_of_field (lo hi : Byte) : distanceBytes (0x10000 - (distanceField lo hi).toNat) = [lo, hi] := by
  have hlt := (distanceField lo hi).isLt
  have hback : 0x10000 - (0x10000 - (distanceField lo hi).toNat) = (distanceField lo hi).toNat := by omega
  rw [distanceBytes, hback, BitVec.ofNat_toNat, BitVec.setWidth_eq, distanceField_low, distanceField_high]

/-- The token `CODEC_GBC` assembles from an indicator byte and its operand bytes is well-formed, and the encoder writes
those bytes for it: the byte is its two fields, and no operand bit is dropped (30_encoding R92 to R97). -/
theorem encodeToken_assemble (cfg : Config) {c : Byte} {ops : List Byte}
    (hops : ops.length = codecGbc.operandCount (codecGbc.classOf c)) :
    encodeToken (codecGbc.assemble c ops) = c :: ops ∧ (codecGbc.assemble c ops).wellFormed cfg = true := by
  have hfields := indicatorByte_fields c
  have hcount : (countField c).toNat < 64 := (countField c).isLt
  obtain ⟨hend, hrpb, hunk, hrpp, hlit⟩ := codecGbc_classOf_iff c
  cases hc : codecGbc.classOf c with
  | endToken =>
    rw [hc] at hops
    obtain rfl := List.length_eq_zero_iff.1 hops
    rw [Codec.assemble, hc, hend.1 hc]
    exact ⟨rfl, rfl⟩
  | unknown =>
    rw [hc] at hops
    obtain rfl := List.length_eq_zero_iff.1 hops
    rw [Codec.assemble, hc]
    exact ⟨rfl, beq_iff_eq.2 (hunk.1 hc)⟩
  | rpb =>
    rw [hc] at hops
    obtain ⟨v, rfl⟩ := List.length_eq_one_iff.1 hops
    obtain ⟨hkind, htwo⟩ := hrpb.1 hc
    have htok : codecGbc.assemble c [v] = .rpb v ((countField c).toNat + 1) := by
      rw [Codec.assemble, hc]
      exact congrArg₂ Instr.rpb (BitVec.ofNat_toNat 8 v) (gbcCount_eval c [v])
    rw [htok, encodeToken, ← hkind, hfields]
    exact ⟨rfl, by simp [Instr.wellFormed, maxCount]; omega⟩
  | rpp =>
    rw [hc] at hops
    obtain ⟨lo, hi, rfl⟩ := List.length_eq_two.1 hops
    have hdist := (distanceField lo hi).isLt
    have htok : codecGbc.assemble c [lo, hi] =
        .rpp (0x10000 - (distanceField lo hi).toNat) ((countField c).toNat + 1) := by
      rw [Codec.assemble, hc]
      exact congrArg₂ Instr.rpp (codecGbc_distance c lo hi) (gbcCount_eval c _)
    rw [htok, encodeToken, ← hrpp.1 hc, hfields, distanceBytes_of_field]
    exact ⟨rfl, by simp [Instr.wellFormed, maxCount]; omega⟩
  | lit =>
    rw [hc] at hops
    obtain rfl := List.length_eq_zero_iff.1 hops
    have htok : codecGbc.assemble c [] = .lit ((countField c).toNat + 1) := by
      rw [Codec.assemble, hc]
      exact congrArg Instr.lit (gbcCount_eval c [])
    rw [htok, encodeToken, ← hlit.1 hc, hfields]
    exact ⟨rfl, by simp [Instr.wellFormed, maxCount]; omega⟩

/-- Settles O3: an accepted sequence is an indicator byte, its operand bytes and the rest. -/
theorem encodeDecodeToken : Obligations.EncodeDecodeToken := by
  unfold Obligations.EncodeDecodeToken
  intro cfg bytes rest i h
  have htok := decode_isToken h
  obtain ⟨c, ops, rfl, hops, rfl⟩ := decodeWith_token h
  obtain ⟨henc, hwf⟩ := encodeToken_assemble cfg hops
  exact ⟨by rw [henc, List.cons_append], htok, hwf⟩

/-- Settles O4: each of the four selectors. -/
theorem requestRoundTrip : Obligations.RequestRoundTrip := by
  unfold Obligations.RequestRoundTrip
  rintro ⟨cmd, args⟩
  have hcmd : cmd = 0#2 ∨ cmd = 1#2 ∨ cmd = 2#2 ∨ cmd = 3#2 := by
    revert cmd
    decide
  obtain rfl | rfl | rfl | rfl := hcmd <;> exact ⟨rfl, rfl⟩

/-- Settles O5: a token takes its indicator byte and the operand bytes of its class. -/
theorem fetchLengthRead : Obligations.FetchLengthRead := by
  unfold Obligations.FetchLengthRead
  refine ⟨fun k bytes rest i h => ?_, fun i htok => ?_⟩
  · obtain ⟨c, ops, rfl, hops, rfl⟩ := decodeWith_token h
    rw [fetchLength_assemble hops, List.length_cons, List.length_append]
    omega
  · cases i with
    | endToken | rpb | unk | rpp | lit => rfl
    | dbuf | dbkg | dwin | dspr => cases htok

/-- The classes of the 256 indicator bytes, by their numbers (30_encoding R96). -/
theorem codecGbc_classOf_toNat : ∀ c : Byte, codecGbc.classOf c =
    if c.toNat = 0 then .endToken
    else if c.toNat ≤ 0x3F then .rpb
    else if c.toNat ≤ 0x7F then .unknown
    else if c.toNat ≤ 0xBF then .rpp
    else .lit := by
  decide

theorem countField_toNat (c : Byte) : (countField c).toNat = c.toNat % 64 := by
  simp only [countField, BitVec.extractLsb'_toNat, Nat.shiftRight_zero]

/-- The count an indicator byte of `CODEC_GBC` carries, by its class (30_encoding R92, R95). -/
theorem codecGbc_count (c : Byte) (ops : List Byte) : codecGbc.count? c ops =
    match codecGbc.classOf c with
    | .endToken | .unknown => none
    | .rpb | .rpp | .lit => some (c.toNat % 64 + 1) := by
  have hcount : gbcCount.eval c ops = c.toNat % 64 + 1 := by rw [gbcCount_eval, countField_toNat]
  unfold Codec.count?
  cases codecGbc.classOf c with
  | endToken | unknown => rfl
  | rpb | rpp | lit => exact congrArg some hcount

/-- Settles O6: the class of each byte, and of the byte's number the residue that the class's range leaves. -/
theorem indicatorClasses : Obligations.IndicatorClasses := by
  unfold Obligations.IndicatorClasses
  refine ⟨codecGbc_classOf_toNat, fun c ops => ?_, fun _ _ => rfl⟩
  have hlt := c.isLt
  rw [codecGbc_count, codecGbc_classOf_toNat]
  split_ifs with h0 h1 h2 h3
  · rfl
  · exact congrArg some (by omega)
  · rfl
  · exact congrArg some (by omega)
  · exact congrArg some (by omega)

/-- Settles O7: the distance is `0x10000` minus the field, so at most `MAX_OFFSET` exactly for a negative field. -/
theorem distanceOfField : Obligations.DistanceOfField := by
  unfold Obligations.DistanceOfField
  intro c lo hi
  have hdist := codecGbc_distance c lo hi
  have hlt := (distanceField lo hi).isLt
  have hint := BitVec.toInt_eq_toNat_cond (distanceField lo hi)
  have hforward (h : (distanceField lo hi).toNat < 0x8000) : maxOffset < codecGbc.rppDistance.eval c [lo, hi] := by
    rw [hdist, maxOffset]
    omega
  refine ⟨hforward, fun (h : 0x8000 ≤ (distanceField lo hi).toNat) => ⟨by omega, by omega, ?_⟩,
    fun s hs h => ?_⟩
  · change _ = -(distanceField lo hi).toInt
    rw [hdist, hint, if_neg (by omega)]
    omega
  · rw [Bool.eq_false_iff, Ne, Machine.State.distanceUsable_iff, hs]
    rintro ⟨-, hmax, -⟩
    exact absurd hmax (Nat.not_le.2 (hforward h))

/-- Settles O8: the decoder run on each of the fixed words. -/
theorem sampleWords : Obligations.SampleWords := by
  unfold Obligations.SampleWords
  exact ⟨rfl, rfl, rfl, rfl, rfl, rfl, rfl, rfl⟩

end Sys2Proof
end

section
/-!
What a step does to memory, trace, oracle and decoder, read off from the four things the engine's step can be: a pull, a
buffer write, an allowed slot of a gated write, a forbidden one (41 R167 to R170).
-/
namespace Sys2Proof.Machine

/-! ### The engine's step and the step around it -/

/-- The engine's step by its effect: a pull, a buffer write, an allowed slot, a forbidden slot. -/
theorem engineStep_effect {s t : State} (h : engineStep s = .next t) :
    (s.ws = .pull ∧ SamePlace s t ∧ (PulledByte s t ∨ PulledEnd s t)) ∨
    (s.ws = .gate ∧ s.dk = .buf ∧ s.bufferRefusal? = none ∧
      t = { s.memWriteUngated s.bufferAddr s.pend with wn := s.wn + 1, ws := .pull }) ∨
    (s.ws = .gate ∧ ∃ tb, s.dk = .tiles tb ∧ tableAllows (s.cfg.table tb) s.nextAnswer = true ∧
      s.tileRefusal? tb = none ∧
      t = { (s.afterQuery.memWrite (s.tileAddr tb) s.pend (some s.nextAnswer)).advanceTile tb with ws := .pull }) ∨
    (s.ws = .gate ∧ ∃ tb, s.dk = .tiles tb ∧ tableAllows (s.cfg.table tb) s.nextAnswer = false ∧
      t = s.afterQuery) := by
  cases hw : s.ws with
  | idle => rw [engineStep_idle (State.not_busy_iff.2 (.inl hw))] at h; cases h
  | done => rw [engineStep_idle (State.not_busy_iff.2 (.inr hw))] at h; cases h
  | pull =>
    obtain ⟨hplace, hpull⟩ := engineStep_pull hw h
    exact .inl ⟨rfl, hplace, hpull⟩
  | gate =>
    obtain hk | ⟨tb, hk⟩ := DestKind.cases_eq s.dk
    · obtain ⟨hfree, rfl⟩ := bufferWrite_next (engineStep_buffer hw hk ▸ h)
      exact .inr (.inl ⟨rfl, hk, hfree, rfl⟩)
    · obtain ⟨hallow, hfree, rfl⟩ | ⟨hforbid, rfl⟩ := gatedWrite_next (engineStep_tiles hw hk ▸ h)
      · exact .inr (.inr (.inl ⟨rfl, tb, hk, hallow, hfree, rfl⟩))
      · exact .inr (.inr (.inr ⟨rfl, tb, hk, hforbid, rfl⟩))

/-- A step that is no reset and no accepted Start: a wait of a block that is not busy, or the engine's. -/
theorem step_next_of_not_hostTurn {s t : State} (h : step s = .next t) (hn : ¬ s.hostTurn) :
    (s.busy = false ∧ ∃ hs, t = { s with host := hs }) ∨
    (s.busy = true ∧ ∃ hs, engineStep { s with host := hs } = .next t) := by
  obtain ⟨hs, hh, -⟩ | ⟨r, hs, hh, hb, -⟩ | ⟨hs, -, hb, rfl⟩ | ⟨hb, hs, he, -⟩ := step_next h
  · exact absurd (.inl ⟨hs, hh⟩) hn
  · exact absurd (.inr ⟨hb, r, hs, hh⟩) hn
  · exact .inl ⟨hb, hs, rfl⟩
  · exact .inr ⟨hb, hs, he⟩

/-- The two moves of the host on the block leave everything outside it, and empty the trace (41 R165, 70 R232). -/
theorem step_of_hostTurn {s t : State} (h : step s = .next t) (hn : s.hostTurn) :
    t.mem = s.mem ∧ t.trace = [] ∧ t.slots = s.slots ∧ t.oracle = s.oracle := by
  obtain ⟨hs, hh⟩ | ⟨hb, r, hs, hh⟩ := hn
  · rw [step_reset hh] at h
    cases h
    exact ⟨rfl, rfl, rfl, rfl⟩
  · rw [step_start hh hb] at h
    obtain ⟨-, dk, rfl, -⟩ := exec_request_next h
    exact ⟨rfl, rfl, rfl, rfl⟩

/-! ### Memory and trace -/

/-- The byte `v` is stored at `a`, and the trace records the pending byte there (20_memory R62). -/
def StoresAt (s t : State) (a : Nat) (v : Byte) (m : Option Mode) : Prop :=
  t.mem = Memory.write s.mem a v ∧ t.trace = s.trace ++ [{ addr := a, byte := s.pend, mode := m }]

/-- Nothing was stored, or the write of the running command's destination was (41 R169, R170). -/
def StoresPending (s t : State) : Prop :=
  (t.mem = s.mem ∧ t.trace = s.trace) ∨
  (s.ws = .gate ∧ s.dk = .buf ∧ ∃ v, (s.inTables s.bufferAddr = false → v = s.pend) ∧
    StoresAt s t s.bufferAddr v none) ∨
  (s.ws = .gate ∧ ∃ tb, s.dk = .tiles tb ∧ StoresAt s t (s.tileAddr tb) s.pend (some s.nextAnswer))

theorem StoresAt.read_other {s t : State} {a a' : Nat} {v : Byte} {m : Option Mode} (h : StoresAt s t a v m)
    (ha : a' ≠ a) : Memory.read t.mem a' = Memory.read s.mem a' := by
  rw [h.1, Memory.read_write_other _ _ ha]

/-- The byte an ungated write stores is the given one where it cannot meet the controller (70 R240; log entry 33). -/
theorem State.ungatedByte_eq {s : State} {a : Nat} (v : Byte) (h : s.inTables a = false) :
    (if s.disturbed a then Config.freeByte s.draws else v) = v := by
  rw [State.not_disturbed h]
  rfl

theorem bufferWrite_stores (s : State) :
    ∃ v, (s.inTables s.bufferAddr = false → v = s.pend) ∧
      StoresAt s { s.memWriteUngated s.bufferAddr s.pend with wn := s.wn + 1, ws := .pull } s.bufferAddr v none :=
  ⟨_, State.ungatedByte_eq s.pend, rfl, rfl⟩

theorem engineStep_stores {s t : State} (h : engineStep s = .next t) : StoresPending s t := by
  obtain ⟨-, hplace, -⟩ | ⟨hw, hk, -, rfl⟩ | ⟨hw, tb, hk, -, -, rfl⟩ | ⟨-, tb, -, -, rfl⟩ := engineStep_effect h
  · exact .inl hplace.memory
  · exact .inr (.inl ⟨hw, hk, bufferWrite_stores s⟩)
  · exact .inr (.inr ⟨hw, tb, hk, rfl, rfl⟩)
  · exact .inl ⟨rfl, rfl⟩

theorem step_stores {s t : State} (h : step s = .next t) :
    (s.hostTurn ∧ t.mem = s.mem ∧ t.trace = []) ∨ StoresPending s t := by
  by_cases hn : s.hostTurn
  · obtain ⟨hmem, htrace, -, -⟩ := step_of_hostTurn h hn
    exact .inl ⟨hn, hmem, htrace⟩
  · refine .inr ?_
    obtain ⟨-, hs, rfl⟩ | ⟨-, hs, he⟩ := step_next_of_not_hostTurn h hn
    · exact .inl ⟨rfl, rfl⟩
    · have hstores : StoresPending { s with host := hs } t := engineStep_stores he
      exact hstores

/-- Memory after a step is memory before it, or that with one byte written (20_memory R62). -/
theorem step_mem {s t : State} (h : step s = .next t) : t.mem = s.mem ∨ ∃ a v, t.mem = Memory.write s.mem a v := by
  obtain ⟨-, hmem, -⟩ | ⟨hmem, -⟩ | ⟨-, -, v, -, hmem, -⟩ | ⟨-, tb, -, hmem, -⟩ := step_stores h
  · exact .inl hmem
  · exact .inl hmem
  · exact .inr ⟨_, v, hmem⟩
  · exact .inr ⟨_, _, hmem⟩

/-- Settles O46: a write keeps the canonical form, and a step changes memory by a write only. -/
theorem stepKeepsCanonicalMemory : Obligations.StepKeepsCanonicalMemory := by
  unfold Obligations.StepKeepsCanonicalMemory
  intro s t hwf h
  obtain hmem | ⟨a, v, hmem⟩ := step_mem h
  · rwa [hmem]
  · rw [hmem]
    exact Memory.wf_write a v hwf

/-- Settles O31: the two moves of the host store nothing, and every other step nothing or the pending byte. -/
theorem onlyWritesStore : Obligations.OnlyWritesStore := by
  unfold Obligations.OnlyWritesStore
  intro s t h
  obtain ⟨hn, hmem, htrace⟩ | ⟨hmem, htrace⟩ | ⟨hw, -, v, -, hstore⟩ | ⟨hw, tb, -, hstore⟩ := step_stores h
  · exact .inl ⟨hmem, .inr ⟨hn, htrace⟩⟩
  · exact .inl ⟨hmem, .inl htrace⟩
  · exact .inr ⟨hw, _, _, hstore.2, fun _ => hstore.read_other⟩
  · exact .inr ⟨hw, _, _, hstore.2, fun _ => hstore.read_other⟩

/-! ### The oracle -/

/-- The engine consumes an answer in a slot of a gated write, allowed or not, and in no other step (41 R170). -/
theorem engineStep_answers {s t : State} (h : engineStep s = .next t) :
    (¬ (s.ws = .gate ∧ s.dk ≠ .buf) ∧ t.slots = s.slots ∧ t.oracle = s.oracle) ∨
    (s.ws = .gate ∧ s.dk ≠ .buf ∧ t.slots = s.slots + 1 ∧ t.oracle = s.oracle.tail) := by
  obtain ⟨hw, hplace, -⟩ | ⟨-, hk, -, rfl⟩ | ⟨hw, tb, hk, -, -, rfl⟩ | ⟨hw, tb, hk, -, rfl⟩ := engineStep_effect h
  · obtain ⟨⟨-, -, horacle, hslots, -⟩, -⟩ := hplace
    exact .inl ⟨by simp [hw], hslots, horacle⟩
  · exact .inl ⟨by simp [hk], rfl, rfl⟩
  · exact .inr ⟨hw, by simp [hk], rfl, rfl⟩
  · exact .inr ⟨hw, by simp [hk], rfl, rfl⟩

/-- Settles O33: only a slot of a gated write consumes an answer, and each such slot one. -/
theorem answersConsumed : Obligations.AnswersConsumed := by
  unfold Obligations.AnswersConsumed
  refine ⟨fun s t h => ?_, fun s t hturn hw hk h => ?_⟩
  · by_cases hn : s.hostTurn
    · obtain ⟨-, -, hslots, horacle⟩ := step_of_hostTurn h hn
      exact .inl ⟨hslots, horacle⟩
    · obtain ⟨-, hs, rfl⟩ | ⟨-, hs, he⟩ := step_next_of_not_hostTurn h hn
      · exact .inl ⟨rfl, rfl⟩
      · obtain ⟨-, hkeep⟩ | hone := engineStep_answers he
        · exact .inl hkeep
        · exact .inr hone
  · rw [step_engineTurn hturn] at h
    obtain ⟨hnot, -⟩ | ⟨-, -, hone⟩ := engineStep_answers h
    · exact absurd ⟨hw, hk⟩ hnot
    · exact hone

/-! ### The decoder -/

/-- What any step of the engine does to the cursor: no move back, and none beyond the codec's reach (40 R133). -/
theorem engineStep_cursor {s t : State} (h : engineStep s = .next t) :
    s.sc ≤ t.sc ∧ t.sc ≤ s.sc + s.cfg.codec.reach := by
  have hreach := operandCount_reach s.cfg.codec .endToken
  obtain ⟨-, -, hbyte | hend⟩ | ⟨-, -, -, rfl⟩ | ⟨-, tb, -, -, -, rfl⟩ | ⟨-, tb, -, -, rfl⟩ := engineStep_effect h
  · have hcursor := hbyte.cursor
    have hcount := hbyte.count
    omega
  · have hcursor := hend.cursor
    exact ⟨by omega, hend.reach⟩
  · simp
  · simp
  · simp

/-- Settles O35: a host that waits leaves the cursor, and the engine moves it forward within the codec's reach. -/
theorem cursorNeverRewinds : Obligations.CursorNeverRewinds := by
  unfold Obligations.CursorNeverRewinds
  refine ⟨fun s t h hn => ?_, by decide⟩
  obtain ⟨-, hs, rfl⟩ | ⟨-, hs, he⟩ := step_next_of_not_hostTurn h hn
  · simp
  · have hcursor := engineStep_cursor he
    exact hcursor

/-- A write step leaves the decoder (41 R169, R170). -/
theorem engineStep_gate_sameDecoder {s t : State} (hw : s.ws = .gate) (h : engineStep s = .next t) :
    SameDecoder s t := by
  obtain ⟨hpull, -⟩ | ⟨-, -, -, rfl⟩ | ⟨-, tb, -, -, -, rfl⟩ | ⟨-, tb, -, -, rfl⟩ := engineStep_effect h
  · rw [hw] at hpull
    cases hpull
  · constructor <;> rfl
  · constructor <;> rfl
  · constructor <;> rfl

/-- A pull after an outcome reads nothing and produces nothing (10_state R30). -/
theorem PulledEnd.sameDecoder {s t : State} (hplace : SamePlace s t) (hend : PulledEnd s t) (hd : s.dstat ≠ .run) :
    SameDecoder s t := by
  obtain ⟨hdstat, hsc, htk, hrem, hval, hoff⟩ := hend.frozen hd
  obtain ⟨hcfg, hsrc, -⟩ := hplace.sameParameters
  obtain ⟨hhist, -⟩ := hend.output
  exact ⟨by rw [hcfg], hsrc.symm, hsc.symm, htk.symm, hrem.symm, hval.symm, hoff.symm, hhist.symm, hdstat.symm⟩

theorem engineStep_frozen {s t : State} (h : engineStep s = .next t) (hd : s.dstat ≠ .run) : SameDecoder s t := by
  obtain ⟨-, hplace, hbyte | hend⟩ | ⟨hw, -⟩ | ⟨hw, -⟩ | ⟨hw, -⟩ := engineStep_effect h
  · obtain ⟨-, -, hrun, -⟩ := hbyte.phase
    exact absurd hrun hd
  · exact hend.sameDecoder hplace hd
  · exact engineStep_gate_sameDecoder hw h
  · exact engineStep_gate_sameDecoder hw h
  · exact engineStep_gate_sameDecoder hw h

/-- Settles O36: after an outcome a pull only ends the command, and no other step touches the decoder. -/
theorem outcomeFrozen : Obligations.OutcomeFrozen := by
  unfold Obligations.OutcomeFrozen
  intro s t h hn hd
  obtain ⟨-, hs, rfl⟩ | ⟨-, hs, he⟩ := step_next_of_not_hostTurn h hn
  · constructor <;> rfl
  · obtain ⟨hcodec, hsrc, hsc, htk, hrem, hval, hoff, hhist, hdstat⟩ := engineStep_frozen he hd
    exact ⟨hcodec, hsrc, hsc, htk, hrem, hval, hoff, hhist, hdstat⟩

/-! ### `STATUS` -/

/-- Settles O37: the only such step is a host that waits. -/
theorem statusKept : Obligations.StatusKept := by
  unfold Obligations.StatusKept
  intro s t h hn hb
  obtain ⟨-, hs, rfl⟩ | ⟨hbusy, -⟩ := step_next_of_not_hostTurn h hn
  · exact ⟨rfl, rfl⟩
  · rw [hb] at hbusy
    cases hbusy

end Sys2Proof.Machine
end

section
/-!
The invariants: they hold after reset, and every step keeps them, by the four moves of the machine (a reset, a Start, a
host that waits, the engine) and the four things the engine's step can be (10_state section 4).
-/
namespace Sys2Proof.Machine

/-! ### The decoder's invariant -/

/-- The decoder's invariant speaks of the parameters and the decoder's elements only. -/
theorem DecoderInv.of_sameDecoder {s t : State} (hi : DecoderInv s) (hcfg : t.cfg = s.cfg) (h : SameDecoder s t) :
    DecoderInv t := by
  obtain ⟨-, hsrc, hsc, htk, hrem, -, hoff, hhist, -⟩ := h
  obtain ⟨lawful, cursor, remaining, offset, backReference, kind, budget⟩ := hi
  simp only [State.n, State.srcLen, hsrc, hsc, htk, hrem, hoff, hhist, ← hcfg] at *
  exact ⟨lawful, cursor, remaining, offset, backReference, kind, budget⟩

theorem DecoderInv.resetBlock {s : State} (hcfg : Config.Lawful s.cfg) : DecoderInv s.resetBlock where
  lawful := hcfg
  cursor := Nat.zero_le _
  remaining := Nat.zero_le _
  offset := ⟨Nat.le_refl 1, hcfg.codec.offsets⟩
  backReference _ := nofun
  kind := nofun
  budget := Nat.zero_le _

theorem DecoderInv.startWith {s : State} (hcfg : Config.Lawful s.cfg) (c : BitVec 2) (dk : DestKind) (a : CmdArgs) :
    DecoderInv (s.startWith c dk a) where
  lawful := hcfg
  cursor := Nat.zero_le _
  remaining := Nat.zero_le _
  offset := ⟨Nat.le_add_left 1 _, Nat.mod_lt _ hcfg.codec.offsets⟩
  backReference := nofun
  kind := nofun
  budget := Nat.zero_le _

/-- A stream byte read pays for a token's count (40 R136). -/
theorem budget_le_of_read {m n sc sc' r : Nat} (hbudget : n ≤ m * sc) (hr : r ≤ m) (hsc : sc + 1 ≤ sc') :
    n + r ≤ m * sc' :=
  calc n + r ≤ m * sc + m := Nat.add_le_add hbudget hr
    _ = m * (sc + 1) := rfl
    _ ≤ m * sc' := Nat.mul_le_mul_left m hsc

theorem DecoderInv.pulledByte {s t : State} (hi : DecoderInv s) (hplace : SamePlace s t) (h : PulledByte s t) :
    DecoderInv t := by
  obtain ⟨hcfg, hsrc, -⟩ := hplace.sameParameters
  have hn : t.n = s.n + 1 := by simp [h.output]
  have hcursor := h.cursor
  have hscs : s.sc ≤ t.sc := by omega
  have hin := hi.cursor
  have hbudget := hi.budget
  obtain ⟨hrem, -, htk, hoff⟩ | ⟨hrem, hroom, hread, -, htk, hoff, hback⟩ := h.count
  · have hrest := hi.remaining
    have hmono := Nat.mul_le_mul_left s.cfg.codec.maxCount hscs
    have hkind := hi.kind (by omega)
    have hreach := fun hk => hi.backReference hk (by omega)
    exact {
      lawful := hcfg ▸ hi.lawful
      cursor := by simp only [State.srcLen] at *; rw [hsrc]; omega
      remaining := by rw [hcfg]; omega
      offset := by rw [hcfg, hoff]; exact hi.offset
      backReference := fun hk _ => by rw [hoff, hn]; exact Nat.le_succ_of_le (hreach (htk ▸ hk))
      kind := fun _ => htk ▸ hkind
      budget := by rw [hcfg]; omega }
  · have hlt := hroom hi.lawful.codec
    have hpaid := budget_le_of_read hbudget (show t.rem + 1 ≤ s.cfg.codec.maxCount from hlt) hread
    exact {
      lawful := hcfg ▸ hi.lawful
      cursor := by simp only [State.srcLen] at *; rw [hsrc]; omega
      remaining := by rw [hcfg]; omega
      offset := by rw [hcfg]; exact hoff.elim (fun h => h ▸ hi.offset) id
      backReference := fun hk _ => by rw [hn]; exact Nat.le_succ_of_le (hback hk)
      kind := fun _ => htk
      budget := by rw [hcfg]; omega }

theorem DecoderInv.pulledEnd {s t : State} (hi : DecoderInv s) (hplace : SamePlace s t) (h : PulledEnd s t) :
    DecoderInv t := by
  obtain ⟨hcfg, hsrc, -⟩ := hplace.sameParameters
  have hn : t.n = s.n := congrArg List.length h.output.1
  have hcursor := h.cursor
  have hscs : s.sc ≤ t.sc := by omega
  have hin := hi.cursor
  have hbudget := hi.budget
  obtain ⟨hrem, htk, hoff⟩ | ⟨hrem, hroom, htk, hoff, hread⟩ := h.count
  · have hmono := Nat.mul_le_mul_left s.cfg.codec.maxCount hscs
    exact {
      lawful := hcfg ▸ hi.lawful
      cursor := by simp only [State.srcLen] at *; rw [hsrc]; omega
      remaining := by rw [hcfg, hrem]; exact hi.remaining
      offset := by rw [hcfg, hoff]; exact hi.offset
      backReference := by rw [htk, hrem, hoff, hn]; exact hi.backReference
      kind := by rw [htk, hrem]; exact hi.kind
      budget := by rw [hcfg]; omega }
  · have hle := hroom hi.lawful.codec
    have hpaid := budget_le_of_read hbudget hle hread
    exact {
      lawful := hcfg ▸ hi.lawful
      cursor := by simp only [State.srcLen] at *; rw [hsrc]; omega
      remaining := by rw [hcfg]; exact hle
      offset := by rw [hcfg, hoff]; exact hi.offset
      backReference := by rw [htk]; nofun
      kind := by rw [htk]; nofun
      budget := by rw [hcfg]; omega }

theorem engineStep_decoderInv {s t : State} (hi : DecoderInv s) (h : engineStep s = .next t) : DecoderInv t := by
  have hcfg := (engineStep_sameParameters h).cfg
  obtain ⟨-, hplace, hbyte | hend⟩ | ⟨hw, -⟩ | ⟨hw, -⟩ | ⟨hw, -⟩ := engineStep_effect h
  · exact hi.pulledByte hplace hbyte
  · exact hi.pulledEnd hplace hend
  · exact hi.of_sameDecoder hcfg (engineStep_gate_sameDecoder hw h)
  · exact hi.of_sameDecoder hcfg (engineStep_gate_sameDecoder hw h)
  · exact hi.of_sameDecoder hcfg (engineStep_gate_sameDecoder hw h)

theorem DecoderInv.withHost {s : State} (hi : DecoderInv s) (hs : List HostMove) :
    DecoderInv { s with host := hs } :=
  hi.of_sameDecoder rfl (by constructor <;> rfl)

/-- Settles O47: a reset and a Start leave a fresh decoder, and the engine's step is a pull or leaves it. -/
theorem stepKeepsDecoderInv : Obligations.StepKeepsDecoderInv := by
  unfold Obligations.StepKeepsDecoderInv
  intro s t hi h
  obtain ⟨hs, -, rfl⟩ | ⟨r, hs, -, -, he⟩ | ⟨hs, -, -, rfl⟩ | ⟨-, hs, he, -⟩ := step_next h
  · exact DecoderInv.resetBlock hi.lawful
  · obtain ⟨-, dk, rfl, -⟩ := exec_request_next he
    exact DecoderInv.startWith (s := { s with host := hs }) hi.lawful _ _ _
  · exact hi.withHost hs
  · exact engineStep_decoderInv (hi.withHost hs) he

/-! ### What holds after a reset and after a Start -/

theorem Inv.resetBlock {s : State} (hcfg : Config.Lawful s.cfg) (hwf : Memory.wf s.mem)
    (hspace : ∀ c ∈ s.mem, c.1 < 2 ^ s.cfg.addrBits) : Inv s.resetBlock where
  decoder := DecoderInv.resetBlock hcfg
  writer := {
    idle := fun _ => ⟨rfl, rfl, rfl⟩
    busy := nofun
    done := nofun
    written := fun _ => rfl
    pending := nofun
    destination := fun h => absurd rfl h
    tile := fun _ h => absurd rfl h }
  trace := ⟨rfl, rfl, fun _ => nofun, fun _ _ => nofun⟩
  memory := ⟨hwf, hspace, nofun⟩

/-- Settles O45: the reset state is the reset of itself, and the default parameters are of the kind the spec covers. -/
theorem invAtReset : Obligations.InvAtReset := by
  unfold Obligations.InvAtReset
  exact Inv.resetBlock (s := State.reset) ⟨codecGbc_contract, by decide⟩ State.reset_mem_wf nofun

theorem Inv.startWith {s : State} (hcfg : Config.Lawful s.cfg) (hwf : Memory.wf s.mem)
    (hspace : ∀ c ∈ s.mem, c.1 < 2 ^ s.cfg.addrBits) {c : BitVec 2} {dk : DestKind} (hdk : dk = destOfSelector c)
    (a : CmdArgs) : Inv (s.startWith c dk a) where
  decoder := DecoderInv.startWith hcfg c dk a
  writer := {
    idle := nofun
    busy := fun _ => ⟨rfl, rfl⟩
    done := nofun
    written := fun _ => rfl
    pending := nofun
    destination := fun _ => hdk
    tile := fun tb _ hk => by
      obtain rfl : dk = .tiles tb := hk
      exact ⟨rfl, id⟩ }
  trace := ⟨rfl, rfl, fun _ => nofun, fun _ _ => nofun⟩
  memory := ⟨hwf, hspace, nofun⟩

/-! ### What a pull keeps -/

theorem WriterInv.pulled {s t : State} (hi : WriterInv s) (hw : s.ws = .pull) (hplace : SamePlace s t)
    (h : PulledByte s t ∨ PulledEnd s t) : WriterInv t := by
  obtain ⟨hstatus, hrun⟩ := hi.busy (State.busy_iff.2 (.inl hw))
  have hwritten := hi.written (by simp [hw])
  obtain ⟨hcfg, -, -, hcmd, -, htile, hdk⟩ := hplace.sameParameters
  obtain ⟨-, hti, hbo, hwn⟩ := hplace.cursor
  have hdest := hi.destination (by simp [hw])
  have htiles := fun tb => hi.tile tb (by simp [hw])
  have hdest' : t.dk = destOfSelector t.cmd := by rw [hdk, hcmd]; exact hdest
  have htiles' (tb : TileTable) (hk : t.dk = .tiles tb) :
      t.ti * (t.cfg.table tb).tileBytes + t.bo = t.tile0 * (t.cfg.table tb).tileBytes + t.wn ∧
      (0 < (t.cfg.table tb).tileBytes → t.bo < (t.cfg.table tb).tileBytes) := by
    rw [hti, hbo, hcfg, htile, hwn]
    exact htiles tb (hdk ▸ hk)
  obtain hbyte | hend := h
  · obtain ⟨hgate, hsame, -, hrun'⟩ := hbyte.phase
    exact {
      idle := by rw [hgate]; nofun
      busy := fun _ => ⟨hsame.trans hstatus, hrun'⟩
      done := by rw [hgate]; nofun
      written := fun hne => absurd hgate hne
      pending := fun _ => by simp [hbyte.output, hwn, hwritten]
      destination := fun _ => hdest'
      tile := fun tb _ => htiles' tb }
  · have hdone := hend.phase
    exact {
      idle := by rw [hdone]; nofun
      busy := fun hb => by simp [State.busy, hdone] at hb
      done := fun _ => hend.outcome
      written := fun _ => by rw [hwn, hwritten, State.n, State.n, hend.output.1]
      pending := by rw [hdone]; nofun
      destination := fun _ => hdest'
      tile := fun tb _ => htiles' tb }

/-- A pull leaves the output as it is, or adds a byte at its end. -/
theorem pulled_hist {s t : State} (h : PulledByte s t ∨ PulledEnd s t) : s.hist <+: t.hist := by
  obtain hbyte | hend := h
  · exact ⟨[t.pend], hbyte.output.symm⟩
  · rw [hend.output.1]

theorem SamePlace.outAddr {s t : State} (hplace : SamePlace s t) : t.outAddr = s.outAddr := by
  obtain ⟨hcfg, -, -, -, hdst, htile, hdk⟩ := hplace.sameParameters
  exact State.outAddr_congr hdk hcfg hdst htile

theorem TraceInv.pulled {s t : State} (hi : TraceInv s) (hplace : SamePlace s t) (hn : s.wn ≤ s.n)
    (hhist : s.hist <+: t.hist) : TraceInv t := by
  obtain ⟨-, htrace⟩ := hplace.memory
  obtain ⟨hcfg, -, -, -, -, -, hdk⟩ := hplace.sameParameters
  obtain ⟨-, -, -, hwn⟩ := hplace.cursor
  obtain ⟨more, hmore⟩ := hhist
  exact {
    bytes := by rw [htrace, hwn, ← hmore, List.take_append_of_le_length hn]; exact hi.bytes
    addresses := by rw [htrace, hwn, hplace.outAddr]; exact hi.addresses
    ungated := by rw [hdk, htrace]; exact hi.ungated
    gated := by rw [hdk, htrace, hcfg]; exact hi.gated }

theorem MemoryInv.pulled {s t : State} (hi : MemoryInv s) (hplace : SamePlace s t) (hn : s.wn ≤ s.n)
    (hhist : s.hist <+: t.hist) : MemoryInv t := by
  obtain ⟨hmem, -⟩ := hplace.memory
  obtain ⟨hcfg, -, -, -, -, -, hdk⟩ := hplace.sameParameters
  obtain ⟨-, -, -, hwn⟩ := hplace.cursor
  obtain ⟨more, hmore⟩ := hhist
  exact {
    canonical := hmem ▸ hi.canonical
    inSpace := by rw [hmem, hcfg]; exact hi.inSpace
    holds := fun k hk hout => by
      rw [hwn] at hk
      rw [hdk, hplace.outAddr, State.inTables, hcfg] at hout
      rw [hmem, hplace.outAddr, ← hmore, List.getElem?_append_left (Nat.lt_of_lt_of_le hk hn)]
      exact hi.holds k hk hout }

theorem Inv.pulled {s t : State} (hi : Inv s) (hw : s.ws = .pull) (hplace : SamePlace s t)
    (h : PulledByte s t ∨ PulledEnd s t) : Inv t := by
  have hn : s.wn ≤ s.n := Nat.le_of_eq (hi.writer.written (by simp [hw]))
  exact {
    decoder := h.elim (hi.decoder.pulledByte hplace) (hi.decoder.pulledEnd hplace)
    writer := hi.writer.pulled hw hplace h
    trace := hi.trace.pulled hplace hn (pulled_hist h)
    memory := hi.memory.pulled hplace hn (pulled_hist h) }

/-! ### What a write keeps -/

/-- The next write is that of the last byte produced. -/
theorem WriterInv.pending_byte {s : State} (hi : WriterInv s) (hw : s.ws = .gate) : s.hist[s.wn]? = some s.pend := by
  obtain ⟨hn, hlast⟩ := hi.pending hw
  rw [List.getLast?_eq_getElem?] at hlast
  rw [← hlast]
  congr 1
  simp only [State.n] at hn
  omega

/-- The addresses the two write steps compute are those of the output (41 R172, R173). -/
theorem State.bufferAddr_eq {s : State} (hk : s.dk = .buf) : s.bufferAddr = s.outAddr s.wn := by
  simp only [State.bufferAddr, State.outAddr, hk]

theorem WriterInv.tileAddr_eq {s : State} {tb : TileTable} (hi : WriterInv s) (hw : s.ws = .gate)
    (hk : s.dk = .tiles tb) : s.tileAddr tb = s.outAddr s.wn := by
  obtain ⟨hpos, -⟩ := hi.tile tb (by simp [hw]) hk
  simp only [State.tileAddr, State.outAddr, hk]
  omega

/-- The written part of the output and the trace grow together by the pending byte. -/
theorem TraceInv.write {s t : State} {m : Option Mode} (hi : TraceInv s) (hwi : WriterInv s) (hw : s.ws = .gate)
    (hsame : SameParameters s t) (hhist : t.hist = s.hist) (hwn : t.wn = s.wn + 1)
    (htrace : t.trace = s.trace ++ [{ addr := s.outAddr s.wn, byte := s.pend, mode := m }])
    (hungated : s.dk = .buf → m = none)
    (hgated : ∀ tb, s.dk = .tiles tb → ∃ x, m = some x ∧ tableAllows (s.cfg.table tb) x = true) : TraceInv t := by
  obtain ⟨hcfg, -, -, -, hdst, htile, hdk⟩ := hsame
  have hevent {e : WriteEvent} (he : e ∈ t.trace) : e ∈ s.trace ∨ e.mode = m := by
    rw [htrace, List.mem_append, List.mem_singleton] at he
    exact he.imp_right fun h => congrArg WriteEvent.mode h
  exact {
    bytes := by
      rw [htrace, hhist, hwn, List.take_add_one, hwi.pending_byte hw, List.map_append, hi.bytes]
      rfl
    addresses := by
      rw [htrace, hwn, State.outAddr_congr hdk hcfg hdst htile, List.range_succ, List.map_append, List.map_append,
        hi.addresses]
      rfl
    ungated := fun hk e he => by
      rw [hdk] at hk
      exact (hevent he).elim (hi.ungated hk e) fun h => h.trans (hungated hk)
    gated := fun tb hk e he => by
      rw [hdk] at hk
      rw [hcfg]
      exact (hevent he).elim (hi.gated tb hk e) fun h => h ▸ hgated tb hk }

theorem Inv.bufferWritten {s : State} (hi : Inv s) (hw : s.ws = .gate) (hk : s.dk = .buf)
    (hfree : s.bufferRefusal? = none) :
    Inv { s.memWriteUngated s.bufferAddr s.pend with wn := s.wn + 1, ws := .pull } := by
  obtain ⟨hroom, -⟩ := bufferRefusal_none.1 hfree
  obtain ⟨hstatus, hrun⟩ := hi.writer.busy (State.busy_iff.2 (.inr hw))
  obtain ⟨hn, -⟩ := hi.writer.pending hw
  obtain ⟨v, hv, hmem, htrace⟩ := bufferWrite_stores s
  rw [State.bufferAddr_eq hk] at *
  exact {
    decoder := hi.decoder.of_sameDecoder rfl (by constructor <;> rfl)
    writer := {
      idle := nofun
      busy := fun _ => ⟨hstatus, hrun⟩
      done := nofun
      written := fun _ => hn.symm
      pending := nofun
      destination := fun _ => hi.writer.destination (by simp [hw])
      tile := fun tb _ hk' => by cases hk.symm.trans hk' }
    trace := hi.trace.write hi.writer hw ⟨rfl, rfl, rfl, rfl, rfl, rfl, rfl⟩ rfl rfl htrace (fun _ => rfl)
      fun tb hk' => by cases hk.symm.trans hk'
    memory := hi.memory.write v hw hi.writer rfl rfl rfl rfl rfl rfl hmem hroom fun h => hv (h hk) }

/-- The tile cursor counts on: `ti * T + bo` grows by 1, and `bo` stays inside its tile (41 R174). -/
theorem advance_cursor {T ti bo base k : Nat} (hpos : ti * T + bo = base + k) (hbo : 0 < T → bo < T) :
    (if bo + 1 = T then ti + 1 else ti) * T + (if bo + 1 = T then 0 else bo + 1) = base + (k + 1) ∧
    (0 < T → (if bo + 1 = T then 0 else bo + 1) < T) := by
  split_ifs with hfull
  · rw [Nat.add_mul]
    omega
  · omega

theorem Inv.tileWritten {s : State} {tb : TileTable} (hi : Inv s) (hw : s.ws = .gate) (hk : s.dk = .tiles tb)
    (hallow : tableAllows (s.cfg.table tb) s.nextAnswer = true) (hfree : s.tileRefusal? tb = none) :
    Inv { (s.afterQuery.memWrite (s.tileAddr tb) s.pend (some s.nextAnswer)).advanceTile tb with ws := .pull } := by
  obtain ⟨-, hroom, -⟩ := tileRefusal_none.1 hfree
  obtain ⟨hstatus, hrun⟩ := hi.writer.busy (State.busy_iff.2 (.inr hw))
  obtain ⟨hn, -⟩ := hi.writer.pending hw
  have hsame (tb' : TileTable) (h : s.dk = .tiles tb') : tb' = tb := by
    rw [hk] at h
    cases h
    rfl
  rw [hi.writer.tileAddr_eq hw hk] at *
  exact {
    decoder := hi.decoder.of_sameDecoder rfl (by constructor <;> rfl)
    writer := {
      idle := nofun
      busy := fun _ => ⟨hstatus, hrun⟩
      done := nofun
      written := fun _ => hn.symm
      pending := nofun
      destination := fun _ => hi.writer.destination (by simp [hw])
      tile := fun tb' _ hk' => by
        obtain rfl := hsame tb' hk'
        obtain ⟨hpos, hbo⟩ := hi.writer.tile tb' (by simp [hw]) hk
        exact advance_cursor hpos hbo }
    trace := hi.trace.write hi.writer hw ⟨rfl, rfl, rfl, rfl, rfl, rfl, rfl⟩ rfl rfl rfl
      (fun h => by cases hk.symm.trans h) fun tb' h => ⟨_, rfl, by rw [hsame tb' h]; exact hallow⟩
    memory := hi.memory.write s.pend hw hi.writer rfl rfl rfl rfl rfl rfl rfl hroom fun _ => rfl }

/-! ### Every step -/

/-- What lies outside the block bears on no invariant: the host's moves and the oracle. -/
theorem Inv.surrounding {s : State} (hi : Inv s) (hs : List HostMove) (ms : List Mode) (k : Nat) :
    Inv { s with host := hs, oracle := ms, slots := k } := by
  obtain ⟨hdec, ⟨h1, h2, h3, h4, h5, h6, h7⟩, ⟨h8, h9, h10, h11⟩, ⟨h12, h13, h14⟩⟩ := hi
  exact ⟨hdec.of_sameDecoder rfl (by constructor <;> rfl), ⟨h1, h2, h3, h4, h5, h6, h7⟩, ⟨h8, h9, h10, h11⟩,
    ⟨h12, h13, h14⟩⟩

theorem engineStep_inv {s t : State} (hi : Inv s) (h : engineStep s = .next t) : Inv t := by
  obtain ⟨hw, hplace, hpull⟩ | ⟨hw, hk, hfree, rfl⟩ | ⟨hw, tb, hk, hallow, hfree, rfl⟩ | ⟨-, tb, -, -, rfl⟩ :=
    engineStep_effect h
  · exact hi.pulled hw hplace hpull
  · exact hi.bufferWritten hw hk hfree
  · exact hi.tileWritten hw hk hallow hfree
  · exact hi.surrounding s.host s.oracle.tail (s.slots + 1)

/-- Settles O48: a reset and a Start set the invariants up, a wait bears on none, and the engine keeps them. -/
theorem stepKeepsInv : Obligations.StepKeepsInv := by
  unfold Obligations.StepKeepsInv
  intro s t hi h
  have hlawful := hi.decoder.lawful
  have hwf := hi.memory.canonical
  have hspace := hi.memory.inSpace
  obtain ⟨hs, -, rfl⟩ | ⟨r, hs, -, -, he⟩ | ⟨hs, -, -, rfl⟩ | ⟨-, hs, he, -⟩ := step_next h
  · exact Inv.resetBlock hlawful hwf hspace
  · obtain ⟨-, dk, rfl, hdk⟩ := exec_request_next he
    exact Inv.startWith (s := { s with host := hs }) hlawful hwf hspace (destOfSelector_eq hdk) r.args
  · exact hi.surrounding hs s.oracle s.slots
  · exact engineStep_inv (hi.surrounding hs s.oracle s.slots) he

end Sys2Proof.Machine
end

section
/-!
The five tokens: what executing each one does, which bytes at the cursor are executed as it, what a pull of its later
bytes does, and what a token leaves unchanged (40 R125 to R129).
-/
namespace Sys2Proof.Machine

/-! ### The step at a fetch -/

/-- Settles O52: a pull that fetches carries out the token it decodes. -/
theorem stepRunsToken : Obligations.StepRunsToken := by
  unfold Obligations.StepRunsToken
  intro s i rest ⟨hturn, hw, hrun, hrem⟩ hd
  rw [step_engineTurn hturn, engineStep_token hw (State.fetchDue_iff.2 ⟨hrun, hrem⟩) hd]

/-- Where the decoder has no outcome yet, executing a token is its fetch part and the pull of one byte (40 R120). -/
theorem exec_token_run {i : Instr} {s : State} (htok : i.isToken = true) (hrun : s.dstat = .run) :
    exec i s = answerPull (emit (Instr.fetchPart i s)) := by
  rw [exec_token htok, runToken_run hrun]

/-- An indicator byte with too few operand bytes after it: those there are have been read, and TruncatedStream ends the
command (60 R203, R204). -/
theorem step_missing_operand {s : State} {c : Byte} {ops : List Byte} (h : s.atFetch) (hs : s.stream = c :: ops)
    (hshort : ops.length < s.cfg.codec.operandCount (s.cfg.codec.classOf c)) :
    step s = .next { s with
      sc := s.sc + (1 + ops.length), dstat := .error .truncated, status := .truncated, ws := .done } := by
  rw [step_truncated h (hs ▸ decodeWith_short hshort), hs, List.length_cons, Nat.add_comm ops.length]

/-! ### END and the unrecognised byte -/

theorem exec_endToken {s : State} (hrun : s.dstat = .run) :
    exec .endToken s = .next { s with sc := s.sc + 1, dstat := .ended, status := .ok, ws := .done } := by
  rw [exec_token_run rfl hrun, Instr.fetchPart, emit_ended rfl]
  rfl

theorem exec_unk {s : State} (c : Byte) (hrun : s.dstat = .run) :
    exec (.unk c) s = .next { s with
      sc := s.sc + 1, dstat := .error .unknown, status := .unknown, ws := .done } := by
  rw [exec_token_run rfl hrun, Instr.fetchPart, emit_failed rfl]
  rfl

/-- Settles O9: END's fetch part is the outcome, and an outcome is answered again at every call. -/
theorem endToken : Obligations.EndToken := by
  unfold Obligations.EndToken
  refine ⟨fun s => exec_endToken, fun s c rest h hc hs => ?_, fun s hd => ?_⟩
  · have ⟨_, _, hrun, _⟩ := h
    rw [stepRunsToken s .endToken rest h (hs ▸ decodeWith_endToken rest hc), exec_endToken hrun]
  · rw [decodeNext, if_neg (by simp [State.fetchDue_iff, hd]), emit_ended hd]

/-- Settles O14: the fetch part of the unrecognised byte is the error. -/
theorem unknownIndicator : Obligations.UnknownIndicator := by
  unfold Obligations.UnknownIndicator
  refine ⟨fun s => exec_unk, fun s c rest h hc hs => ?_⟩
  have ⟨_, _, hrun, _⟩ := h
  rw [stepRunsToken s (.unk c) rest h (hs ▸ decodeWith_unknown rest hc), exec_unk c hrun]

/-- Settles O15: nothing is left to read, so the cursor stays. -/
theorem missingIndicator : Obligations.MissingIndicator := by
  unfold Obligations.MissingIndicator
  intro s h hs
  rw [step_truncated h (m := .indicator) (hs ▸ rfl), hs]
  rfl

/-! ### RPB -/

theorem exec_rpb {s : State} {n : Nat} (v : Byte) (hrun : s.dstat = .run) (hn : 1 ≤ n) :
    exec (.rpb v n) s = .next { s with
      sc := s.sc + (1 + s.cfg.codec.rpbOperands), val := v, tk := .rpb, rem := n - 1
      hist := s.hist ++ [v], pend := v, ws := .gate } := by
  rw [exec_token_run rfl hrun, Instr.fetchPart, emit_rpb (s := fetchRpb v n s) hrun hn rfl]
  rfl

/-- Settles O10: its execution, its fetch, each later pull, and its missing operand byte. -/
theorem repeatByteToken : Obligations.RepeatByteToken := by
  unfold Obligations.RepeatByteToken
  refine ⟨fun s v n => exec_rpb v, fun s c ops rest h hc hops hs => ?_, fun s hturn hw hrun htk hrem => ?_,
    fun s c ops h hc hshort hs => ?_⟩
  · exact stepRunsToken s _ rest h (hs ▸ decodeWith_rpb rest hc hops)
  · rw [step_continue hturn hw hrem, emit_rpb hrun hrem htk]
    rfl
  · exact step_missing_operand h hs (hc ▸ hshort)

/-! ### RPP -/

theorem exec_rpp {s : State} {o n : Nat} {b : Byte} (hrun : s.dstat = .run) (hn : 1 ≤ n) (h1 : 1 ≤ o)
    (h2 : o ≤ s.cfg.codec.maxOffset) (h3 : o ≤ s.n) (hb : s.hist[s.n - o]? = some b) :
    exec (.rpp o n) s = .next { s with
      sc := s.sc + (1 + s.cfg.codec.rppOperands), off := o, tk := .rpp, rem := n - 1
      hist := s.hist ++ [b], pend := b, ws := .gate } := by
  obtain ⟨hbad, -⟩ | ⟨-, hfetch⟩ := fetchRpp_cases o n s
  · exact absurd ⟨h1, h2, h3⟩ hbad
  · rw [exec_token_run rfl hrun, Instr.fetchPart, hfetch,
      emit_rpp (s := { s.consume _ with off := o, tk := .rpp, rem := n }) hrun hn rfl h1 h3 hb]
    rfl

theorem exec_rpp_malformed {s : State} {o : Nat} (n : Nat) (hrun : s.dstat = .run)
    (hbad : o = 0 ∨ s.cfg.codec.maxOffset < o ∨ s.n < o) :
    exec (.rpp o n) s = .next { s with
      sc := s.sc + (1 + s.cfg.codec.rppOperands), dstat := .error .malformed, status := .malformed, ws := .done } := by
  obtain ⟨-, hfetch⟩ | ⟨hgood, -⟩ := fetchRpp_cases o n s
  · rw [exec_token_run rfl hrun, Instr.fetchPart, hfetch, emit_failed rfl]
    rfl
  · omega

/-- Settles O11: its execution, its malformed distances, its fetch, each later pull, and its missing distance bytes. -/
theorem repeatPatternToken : Obligations.RepeatPatternToken := by
  unfold Obligations.RepeatPatternToken
  refine ⟨fun s o n b => exec_rpp, fun s o n => exec_rpp_malformed n, fun s c ops rest h hc hops hs => ?_,
    fun s b hturn hw hrun htk hrem h1 h2 hb => ?_, fun s c ops h hc hshort hs => ?_⟩
  · exact stepRunsToken s _ rest h (hs ▸ decodeWith_rpp rest hc hops)
  · rw [step_continue hturn hw hrem, emit_rpp hrun hrem htk h1 h2 hb]
    rfl
  · exact step_missing_operand h hs (hc ▸ hshort)

/-- Settles O12: the byte a usable distance names is in the history. -/
theorem repeatPatternCompletes : Obligations.RepeatPatternCompletes := by
  unfold Obligations.RepeatPatternCompletes
  intro s o n hrun hn h1 h2 h3
  obtain ⟨b, -, hb⟩ := State.histBack_isSome h1 h3
  exact ⟨_, b, exec_rpp hrun hn h1 h2 h3 hb, hb, rfl, rfl, rfl, rfl, rfl, rfl, rfl⟩

/-! ### LIT -/

theorem exec_lit {s : State} {n : Nat} {b : Byte} (hrun : s.dstat = .run) (hn : 1 ≤ n)
    (hb : s.src[s.sc + (1 + s.cfg.codec.litOperands)]? = some b) :
    exec (.lit n) s = .next { s with
      sc := s.sc + (2 + s.cfg.codec.litOperands), tk := .lit, rem := n - 1, hist := s.hist ++ [b]
      pend := b, ws := .gate } := by
  have hsc : s.sc + (2 + s.cfg.codec.litOperands) = s.sc + (1 + s.cfg.codec.litOperands) + 1 := by omega
  rw [hsc, exec_token_run rfl hrun, Instr.fetchPart, emit_lit (s := fetchLit n s) hrun hn rfl hb]
  simp only [answerPull, fetchLit, State.consume, State.appendByte]

theorem exec_lit_truncated {s : State} {n : Nat} (hrun : s.dstat = .run) (hn : 1 ≤ n)
    (hb : s.src[s.sc + (1 + s.cfg.codec.litOperands)]? = none) :
    exec (.lit n) s = .next { s with
      sc := s.sc + (1 + s.cfg.codec.litOperands), tk := .lit, rem := n
      dstat := .error .truncated, status := .truncated, ws := .done } := by
  rw [exec_token_run rfl hrun, Instr.fetchPart, emit_lit_end (s := fetchLit n s) hrun hn rfl hb]
  rfl

/-- Settles O13: its execution with a first data byte and without, its fetch, and each later pull with a data byte and
without. -/
theorem literalToken : Obligations.LiteralToken := by
  unfold Obligations.LiteralToken
  refine ⟨fun s n b => exec_lit, fun s n => exec_lit_truncated, fun s c ops rest h hc hops hs => ?_,
    fun s b hturn hw hrun htk hrem hb => ?_, fun s hturn hw hrun htk hrem hb => ?_⟩
  · exact stepRunsToken s _ rest h (hs ▸ decodeWith_lit rest hc hops)
  · rw [step_continue hturn hw hrem, emit_lit hrun hrem htk hb]
    rfl
  · rw [step_continue hturn hw hrem, emit_lit_end hrun hrem htk hb]
    rfl

/-! ### What a token leaves unchanged -/

theorem SamePlace.refl (s : State) : SamePlace s s := by
  constructor <;> simp

theorem SamePlace.trans {s t u : State} (h : SamePlace s t) (h' : SamePlace t u) : SamePlace s u := by
  obtain ⟨⟨a1, a2, a3, a4, a5⟩, ⟨b1, b2, b3, b4, b5⟩, ⟨c1, c2, c3, c4⟩, d1, d2⟩ := h
  obtain ⟨⟨e1, e2, e3, e4, e5⟩, ⟨f1, f2, f3, f4, f5⟩, ⟨g1, g2, g3, g4⟩, k1, k2⟩ := h'
  exact ⟨⟨e1.trans a1, e2.trans a2, e3.trans a3, e4.trans a4, e5.trans a5⟩,
    ⟨f1.trans b1, f2.trans b2, f3.trans b3, f4.trans b4, f5.trans b5⟩,
    ⟨g1.trans c1, g2.trans c2, g3.trans c3, g4.trans c4⟩, k1.trans d1, k2.trans d2⟩

/-- A fetch part changes the decoder's elements but the history, and nothing else (40 R121). -/
theorem fetchPart_frame (i : Instr) (s : State) :
    SamePlace s (Instr.fetchPart i s) ∧ (Instr.fetchPart i s).hist = s.hist ∧ (Instr.fetchPart i s).pend = s.pend ∧
      (Instr.fetchPart i s).status = s.status := by
  cases i with
  | rpp o n =>
    obtain ⟨-, h⟩ | ⟨-, h⟩ := fetchRpp_cases o n s
    · rw [Instr.fetchPart, h]
      exact ⟨by constructor <;> simp, rfl, rfl, rfl⟩
    · rw [Instr.fetchPart, h]
      exact ⟨by constructor <;> simp, rfl, rfl, rfl⟩
  | endToken | rpb | unk | lit | dbuf | dbkg | dwin | dspr =>
    exact ⟨⟨⟨rfl, rfl, rfl, rfl, rfl⟩, ⟨rfl, rfl, rfl, rfl, rfl⟩, ⟨rfl, rfl, rfl, rfl⟩, rfl, rfl⟩, rfl, rfl, rfl⟩

/-- Executing a token is a pull from a state whose fetch is done, or whose outcome is reached (40 R120). -/
theorem exec_token_next {i : Instr} {s t : State} (htok : i.isToken = true) (h : exec i s = .next t) :
    ∃ u, (u = Instr.fetchPart i s ∨ (u = s ∧ s.dstat ≠ .run)) ∧ answerPull (emit u) = .next t := by
  by_cases hrun : s.dstat = .run
  · exact ⟨_, .inl rfl, exec_token_run htok hrun ▸ h⟩
  · rw [exec_token htok, runToken_sticky hrun] at h
    exact ⟨s, .inr ⟨rfl, hrun⟩, h⟩

/-- A pull with no fetch leaves value and distance, `STATUS` where it produces a byte, and the output where it does
not. -/
theorem pull_frame {s t : State} (h : answerPull (emit s) = .next t) :
    t.val = s.val ∧ t.off = s.off ∧ (t.ws = .gate → t.status = s.status) ∧
      (t.ws = .done → t.hist = s.hist ∧ t.pend = s.pend) := by
  obtain ⟨-, -, b, ⟨-, rfl⟩ | ⟨-, -, rfl⟩⟩ | ⟨-, rfl⟩ | ⟨e, -, rfl⟩ | ⟨-, -, -, -, rfl⟩ := pull_next h
  · exact ⟨rfl, rfl, fun _ => rfl, nofun⟩
  · exact ⟨rfl, rfl, fun _ => rfl, nofun⟩
  · exact ⟨rfl, rfl, nofun, fun _ => ⟨rfl, rfl⟩⟩
  · exact ⟨rfl, rfl, nofun, fun _ => ⟨rfl, rfl⟩⟩
  · exact ⟨rfl, rfl, nofun, fun _ => ⟨rfl, rfl⟩⟩

/-- A pull after an outcome ends the command (41 R168). -/
theorem pull_of_outcome {s t : State} (h : answerPull (emit s) = .next t) (hd : s.dstat ≠ .run) :
    ∃ st, t = s.endCommand st := by
  obtain ⟨hrun, -⟩ | ⟨-, rfl⟩ | ⟨e, -, rfl⟩ | ⟨hrun, -⟩ := pull_next h
  · exact absurd hrun hd
  · exact ⟨_, rfl⟩
  · exact ⟨_, rfl⟩
  · exact absurd hrun hd

/-- Settles O16: the pull leaves what its fetch part left, and the fetch part leaves what the token does not name. -/
theorem tokenFrame : Obligations.TokenFrame := by
  unfold Obligations.TokenFrame
  intro i s t htok h
  obtain ⟨u, hu, hpull⟩ := exec_token_next htok h
  have hfrom : SamePlace s u ∧ u.hist = s.hist ∧ u.pend = s.pend ∧ u.status = s.status := by
    obtain rfl | ⟨rfl, -⟩ := hu
    · exact fetchPart_frame i s
    · exact ⟨SamePlace.refl u, rfl, rfl, rfl⟩
  obtain ⟨hplace, hhist, hpend, hstatus⟩ := hfrom
  obtain ⟨hval, hoff, hgate, hdone⟩ := pull_frame hpull
  obtain ⟨⟨hcfg, hhost, horacle, hslots, hdraws⟩, ⟨hsrc, hbase, hcmd, hdst, htile⟩, ⟨hdk, hti, hbo, hwn⟩,
    hmem, htrace⟩ := hplace.trans (pull_continue hpull).1
  refine ⟨⟨hcfg, hhost, horacle, hslots, hdraws, hsrc, hbase, hcmd, hdst, htile, hdk, hti, hbo, hwn, htrace,
    fun a => by rw [hmem]⟩, fun hi => ?_, ?_, ?_, ?_, fun hg => (hgate hg).trans hstatus,
    fun hd => ⟨(hdone hd).1.trans hhist, (hdone hd).2.trans hpend⟩⟩
  · have houtcome : u.dstat ≠ .run ∧ u.tk = s.tk ∧ u.rem = s.rem ∧ u.val = s.val ∧ u.off = s.off := by
      obtain rfl | ⟨rfl, hd⟩ := hu
      · obtain rfl | ⟨c, rfl⟩ := hi
        · exact ⟨nofun, rfl, rfl, rfl, rfl⟩
        · exact ⟨nofun, rfl, rfl, rfl, rfl⟩
      · exact ⟨hd, rfl, rfl, rfl, rfl⟩
    obtain ⟨hd, htk, hrem, hval', hoff'⟩ := houtcome
    obtain ⟨st, rfl⟩ := pull_of_outcome hpull hd
    exact ⟨htk, hrem, hval', hoff', hhist, hpend⟩
  · rintro ⟨v, n, rfl⟩
    rw [hoff]
    obtain rfl | ⟨rfl, -⟩ := hu <;> rfl
  · rintro ⟨o, n, rfl⟩
    rw [hval]
    obtain rfl | ⟨rfl, -⟩ := hu
    · obtain ⟨-, hfetch⟩ | ⟨-, hfetch⟩ := fetchRpp_cases o n s <;> rw [Instr.fetchPart, hfetch] <;> rfl
    · rfl
  · rintro ⟨n, rfl⟩
    rw [hval, hoff]
    obtain rfl | ⟨rfl, -⟩ := hu <;> exact ⟨rfl, rfl⟩

end Sys2Proof.Machine
end

section
/-!
The four commands, the host's moves on the block, the codes of `STATUS` and the controller's modes (41 R160 to R165;
30_encoding R105, R106).
-/
namespace Sys2Proof.Machine

/-! ### Starting a command -/

/-- A command is a Start, and well-formed where the argument it reads fits its register (41 R161 to R164). -/
theorem exec_command {i : Instr} (hi : i.isToken = false) :
    ∃ c dk a, (∀ s, exec i s = start c dk a s) ∧ ∀ cfg, i.wellFormed cfg = argumentFits cfg a dk := by
  cases i with
  | endToken | rpb | unk | rpp | lit => cases hi
  | dbuf a | dbkg a | dwin a | dspr a => exact ⟨_, _, a, fun _ => rfl, fun _ => rfl⟩

theorem startWith_startedFrom (s : State) (c : BitVec 2) (dk : DestKind) (a : CmdArgs) :
    StartedFrom s c dk a (s.startWith c dk a) where
  arguments := ⟨rfl, rfl, rfl, rfl, rfl⟩
  decoder := ⟨rfl, rfl, rfl, rfl, rfl⟩
  writer := ⟨rfl, rfl, rfl, rfl⟩
  cursor tb hk := by
    obtain rfl := hk
    exact ⟨rfl, rfl⟩
  trace := rfl
  surrounding := ⟨rfl, rfl, rfl, rfl, rfl⟩

/-- Settles O17: each of the four is a Start of its destination. -/
theorem commandsStart : Obligations.CommandsStart := by
  unfold Obligations.CommandsStart
  intro s a hb hhist
  have started (c : BitVec 2) {dk : DestKind} (hfit : argumentFits s.cfg a dk = true) :
      ∃ t, start c dk a s = .next t ∧ StartedFrom s c dk a t :=
    ⟨_, start_eq hb hhist hfit, startWith_startedFrom s c dk a⟩
  exact ⟨fun hfit => started 0#2 (dk := .buf) hfit, fun hfit => ⟨started 1#2 (dk := .tiles .bg) hfit,
    started 2#2 (dk := .tiles .bg) hfit, started 3#2 (dk := .tiles .spr) hfit⟩⟩

/-- Settles O18: the Start's first test is the phase. -/
theorem noStartWhileBusy : Obligations.NoStartWhileBusy := by
  unfold Obligations.NoStartWhileBusy
  intro i s hi hb
  obtain ⟨c, dk, a, hexec, -⟩ := exec_command hi
  rw [hexec, start, if_pos hb]

/-- Settles O19: the Start's other two tests, in their order. -/
theorem startRefusals : Obligations.StartRefusals := by
  unfold Obligations.StartRefusals
  intro i s hi hb
  obtain ⟨c, dk, a, hexec, hwf⟩ := exec_command hi
  refine ⟨fun hhist => ?_, fun hhist hbad => ?_⟩
  · simp [hexec, start, hb, hhist]
  · rw [hwf] at hbad
    simp [hexec, start, hb, hhist, hbad]

/-- Settles O53: the host's request goes before the engine. -/
theorem stepRunsCommand : Obligations.StepRunsCommand := by
  unfold Obligations.StepRunsCommand
  exact fun _ _ _ => step_start

/-- Settles O55: the reset state in the block's own surrounding. -/
theorem resetStep : Obligations.ResetStep := by
  unfold Obligations.ResetStep
  exact fun _ _ hh => ⟨_, step_reset hh, rfl, rfl, rfl, rfl, rfl, rfl⟩

/-- Settles O44: the reset state and the default parameters, as they are defined. -/
theorem resetState : Obligations.ResetState := by
  unfold Obligations.ResetState
  exact ⟨rfl, rfl, rfl, rfl, rfl, rfl, rfl, rfl, rfl, rfl, rfl, rfl, rfl, rfl, rfl, rfl, rfl, rfl⟩

/-! ### Codes and modes -/

/-- Settles O56: the code of each status. -/
theorem statusCodes : Obligations.StatusCodes := by
  unfold Obligations.StatusCodes
  refine ⟨⟨rfl, rfl, rfl, rfl, rfl, rfl⟩, fun x => ?_⟩
  cases x <;> decide

/-- A free answer is one of the listed modes, whatever its index (00_scope section 5). -/
theorem modeAt_mem {c : Config} (h : c.modes ≠ []) (k : Nat) : c.modeAt k ∈ c.modes := by
  have hlt : k % c.modes.length < c.modes.length := Nat.mod_lt _ (List.length_pos_iff.2 h)
  rw [Config.modeAt, List.getD_eq_getElem _ _ hlt]
  exact List.getElem_mem hlt

/-- Settles O57: the answer is the script's first, or a free one. -/
theorem answersAreModes : Obligations.AnswersAreModes := by
  unfold Obligations.AnswersAreModes
  intro s hmodes hscript
  unfold State.nextAnswer
  cases ho : s.oracle with
  | nil => exact modeAt_mem hmodes _
  | cons m ms => exact hscript m (by simp [ho])

/-- Settles O58: the four codes, and both tables' lists of writable modes. -/
theorem defaultModes : Obligations.DefaultModes := by
  unfold Obligations.DefaultModes
  refine ⟨by decide, rfl, ⟨rfl, rfl, rfl, rfl⟩, fun m tb => ?_⟩
  cases tb with
  | bg => revert m; decide
  | spr => revert m; decide

end Sys2Proof.Machine
end

section
/-!
The write steps: what they store, what they refuse, what they leave unchanged, and how a gated write waits for an
allowed slot (41 R169 to R177).
-/
namespace Sys2Proof.Machine

/-! ### The refusals (41 R175, 20_memory R76) -/

theorem bufferRefusal_outOfRange {s : State} (h : 2 ^ s.cfg.addrBits ≤ s.bufferAddr) :
    s.bufferRefusal? = some .addressOutOfRange := by
  simp [State.bufferRefusal?, State.addressExists, h]

theorem bufferRefusal_overlap {s : State} (h1 : s.bufferAddr < 2 ^ s.cfg.addrBits)
    (h2 : s.inSource s.bufferAddr = true) : s.bufferRefusal? = some .sourceOverlap := by
  simp [State.bufferRefusal?, State.addressExists, h1, h2]

theorem tileRefusal_slot {s : State} {tb : TileTable} (h : (s.cfg.table tb).tiles ≤ s.ti) :
    s.tileRefusal? tb = some .addressOutOfRange := by
  simp [State.tileRefusal?, State.slotInTable, h]

theorem tileRefusal_outOfRange {s : State} {tb : TileTable} (h : 2 ^ s.cfg.addrBits ≤ s.tileAddr tb) :
    s.tileRefusal? tb = some .addressOutOfRange := by
  simp [State.tileRefusal?, State.addressExists, h]

theorem tileRefusal_overlap {s : State} {tb : TileTable} (h1 : s.ti < (s.cfg.table tb).tiles)
    (h2 : s.tileAddr tb < 2 ^ s.cfg.addrBits) (h3 : s.inSource (s.tileAddr tb) = true) :
    s.tileRefusal? tb = some .sourceOverlap := by
  simp [State.tileRefusal?, State.slotInTable, State.addressExists, h1, h2, h3]

/-! ### The step at a write, by destination and answer -/

theorem step_bufferWrite {s : State} (hturn : s.engineTurn) (hw : s.ws = .gate) (hk : s.dk = .buf)
    (h : s.bufferRefusal? = none) :
    step s = .next { s.memWriteUngated s.bufferAddr s.pend with wn := s.wn + 1, ws := .pull } := by
  rw [step_engineTurn hturn, engineStep_buffer hw hk, bufferWrite, h]

theorem step_bufferWrite_refused {s : State} {r : Refusal} (hturn : s.engineTurn) (hw : s.ws = .gate)
    (hk : s.dk = .buf) (h : s.bufferRefusal? = some r) : step s = .refused r := by
  rw [step_engineTurn hturn, engineStep_buffer hw hk, bufferWrite, h]

theorem step_allowedSlot {s : State} {tb : TileTable} (hturn : s.engineTurn) (hw : s.ws = .gate)
    (hk : s.dk = .tiles tb) (hallow : tableAllows (s.cfg.table tb) s.nextAnswer = true)
    (h : s.tileRefusal? tb = none) :
    step s = .next { (s.afterQuery.memWrite (s.tileAddr tb) s.pend (some s.nextAnswer)).advanceTile tb with
      ws := .pull } := by
  rw [step_engineTurn hturn, engineStep_tiles hw hk, gatedWrite, if_pos hallow, tileWrite,
    State.afterQuery_tileRefusal, h]
  rfl

theorem step_allowedSlot_refused {s : State} {tb : TileTable} {r : Refusal} (hturn : s.engineTurn)
    (hw : s.ws = .gate) (hk : s.dk = .tiles tb) (hallow : tableAllows (s.cfg.table tb) s.nextAnswer = true)
    (h : s.tileRefusal? tb = some r) : step s = .refused r := by
  rw [step_engineTurn hturn, engineStep_tiles hw hk, gatedWrite, if_pos hallow, tileWrite,
    State.afterQuery_tileRefusal, h]

theorem step_forbiddenSlot {s : State} {tb : TileTable} (hturn : s.engineTurn) (hw : s.ws = .gate)
    (hk : s.dk = .tiles tb) (hforbid : tableAllows (s.cfg.table tb) s.nextAnswer = false) :
    step s = .next s.afterQuery := by
  rw [step_engineTurn hturn, engineStep_tiles hw hk, gatedWrite, if_neg (by simp [hforbid])]

/-- Settles O24: the byte stored is the pending one, or free where the controller can be met. -/
theorem Engine.bufferWrite : Obligations.BufferWrite := by
  unfold Obligations.BufferWrite
  intro s hturn hw hk hroom hclear
  exact ⟨_, State.ungatedByte_eq (a := s.bufferAddr) s.pend,
    step_bufferWrite hturn hw hk (bufferRefusal_none.2 ⟨hroom, hclear⟩)⟩

/-- Settles O25: a slot with a writable answer, and one with a forbidden answer. -/
theorem Engine.gatedWrite : Obligations.GatedWrite := by
  unfold Obligations.GatedWrite
  exact fun s tb hturn hw hk => ⟨fun hallow hslot hroom hclear =>
    step_allowedSlot hturn hw hk hallow (tileRefusal_none.2 ⟨hslot, hroom, hclear⟩), step_forbiddenSlot hturn hw hk⟩

/-- Settles O28: the buffer's address, the tile slot, and the address of a slot of the table. -/
theorem outOfRangeRefused : Obligations.OutOfRangeRefused := by
  unfold Obligations.OutOfRangeRefused
  exact fun s hturn hw =>
    ⟨fun hk h => step_bufferWrite_refused hturn hw hk (bufferRefusal_outOfRange h),
      fun tb hk hallow h => step_allowedSlot_refused hturn hw hk hallow (tileRefusal_slot h),
      fun tb hk hallow _ h => step_allowedSlot_refused hturn hw hk hallow (tileRefusal_outOfRange h)⟩

/-- Settles O29: the buffer's address and the tile's, in range and inside the stream. -/
theorem overlapRefused : Obligations.OverlapRefused := by
  unfold Obligations.OverlapRefused
  exact fun s hturn hw =>
    ⟨fun hk h1 h2 => step_bufferWrite_refused hturn hw hk (bufferRefusal_overlap h1 h2),
      fun tb hk hallow h1 h2 h3 => step_allowedSlot_refused hturn hw hk hallow (tileRefusal_overlap h1 h2 h3)⟩

/-- Settles O30: the three things a write step can be, each with the elements it names. -/
theorem writeFrame : Obligations.WriteFrame := by
  unfold Obligations.WriteFrame
  intro s t hturn hw h
  rw [step_engineTurn hturn] at h
  obtain ⟨hpull, -⟩ | ⟨-, hk, -, rfl⟩ | ⟨-, tb, hk, hallow, -, rfl⟩ | ⟨-, tb, hk, hforbid, rfl⟩ := engineStep_effect h
  · rw [hw] at hpull
    cases hpull
  · refine ⟨by simp, fun _ => ⟨rfl, rfl, rfl, rfl, fun a ha => Memory.read_write_other _ _ ha⟩, fun tb hk' => ?_⟩
    cases hk.symm.trans hk'
  · refine ⟨by simp, fun hk' => ?_, fun tb' hk' => ?_⟩
    · cases hk.symm.trans hk'
    · cases hk.symm.trans hk'
      refine ⟨rfl, fun a ha => Memory.read_write_other _ _ ha, fun hforbid => ?_⟩
      rw [hallow] at hforbid
      cases hforbid
  · refine ⟨by simp, fun hk' => ?_, fun tb' _ => ?_⟩
    · cases hk.symm.trans hk'
    · exact ⟨rfl, fun _ _ => rfl, fun _ => ⟨fun _ => rfl, rfl, rfl, rfl, rfl, hw⟩⟩

/-! ### Waiting for an allowed slot (41 R176, R177) -/

theorem engineTurn_of_gate {s : State} (hw : s.ws = .gate) (hh : s.host = []) : s.engineTurn :=
  ⟨State.busy_iff.2 (.inr hw), .inl hh⟩

theorem nextAnswer_of_script {s : State} {m : Mode} {ms : List Mode} (ho : s.oracle = m :: ms) : s.nextAnswer = m := by
  rw [State.nextAnswer, ho]

/-- Settles O42, by induction on the forbidden answers: each takes one slot. -/
theorem forbiddenWaits : Obligations.ForbiddenWaits := by
  unfold Obligations.ForbiddenWaits
  intro s tb ms
  induction ms generalizing s with
  | nil =>
    intro rest _ _ _ ho _
    exact reaches_zero.2 (by rw [← show s.oracle = rest from ho]; rfl)
  | cons m ms ih =>
    intro rest hw hk hh ho hforbid
    have hslot : step s = .next s.afterQuery := by
      refine step_forbiddenSlot (engineTurn_of_gate hw hh) hw hk ?_
      rw [nextAnswer_of_script ho]
      exact hforbid m (by simp)
    have hrest := ih s.afterQuery rest hw hk hh (by simp [ho]) fun x hx => hforbid x (by simp [hx])
    have hcount : s.afterQuery.slots + ms.length = s.slots + (m :: ms).length := Nat.add_right_comm ..
    rw [hcount] at hrest
    exact (reaches_succ hslot).2 hrest

/-- Settles O43: the wait for the forbidden answers, then the slot with the allowed one. -/
theorem writeInAllowedSlot : Obligations.WriteInAllowedSlot := by
  unfold Obligations.WriteInAllowedSlot
  intro s tb ms rest m hw hk hh ho hforbid hallow hfree
  have hwait := forbiddenWaits s tb ms (m :: rest) hw hk hh ho hforbid
  have hslot := step_allowedSlot (s := { s with oracle := m :: rest, slots := s.slots + ms.length })
    (engineTurn_of_gate hw hh) hw hk hallow hfree
  exact ⟨_, reaches_add hwait ((reaches_succ hslot).2 (reaches_zero.2 rfl)), rfl, rfl, rfl, rfl, rfl⟩

end Sys2Proof.Machine
end

section
/-!
No run comes to a stop inside a command: where a step is a fault, that the faults of broken preconditions do not occur
under the invariants, and that a buffer command with room ends (20_memory R64; 40 R123, R136; 41 R167).
-/
namespace Sys2Proof.Machine

/-! ### Where a step is a fault -/

/-- Settles O21: a busy phase has a step, a pull or a write, and neither is the fault of a phase with none. -/
theorem engineSteps : Obligations.EngineSteps := by
  unfold Obligations.EngineSteps
  intro s hh
  rw [step_quiet hh]
  refine ⟨fun h => ?_, engineStep_idle⟩
  cases hb : s.busy with
  | false => rfl
  | true =>
    obtain hw | hw := State.busy_iff.1 hb
    · obtain hf | hf := engineStep_pull_fault hw h <;> cases hf
    · rw [engineStep_gate hw] at h
      exact absurd h writeStep_ne_fault

theorem start_ne_fault {c : BitVec 2} {dk : DestKind} {a : CmdArgs} {s : State} {f : Fault} :
    start c dk a s ≠ .fault f := by
  unfold start
  repeat' split
  all_goals nofun

/-- A fault is that of a phase with no step, or one of the engine's in a busy phase. -/
theorem step_fault {s : State} {f : Fault} (h : step s = .fault f) :
    f = .noEnabledStep ∨ (s.busy = true ∧ ∃ hs, engineStep { s with host := hs } = .fault f) := by
  cases hb : s.busy with
  | false =>
    match hh : s.host with
    | .reset :: hs => rw [step_reset hh] at h; cases h
    | .start r :: hs =>
      rw [step_start hh hb] at h
      obtain ⟨-, hcmd⟩ := requestRoundTrip r
      obtain ⟨c, dk, a, hexec, -⟩ := exec_command hcmd
      exact absurd (hexec _ ▸ h) start_ne_fault
    | .wait :: hs => rw [step_wait hh hb] at h; cases h
    | [] =>
      rw [step_quiet hh, engineStep_idle hb] at h
      cases h
      exact .inl rfl
  | true =>
    match hh : s.host with
    | .reset :: hs => rw [step_reset hh] at h; cases h
    | .start r :: hs => rw [step_start_busy hh hb] at h; exact .inr ⟨rfl, s.host, h⟩
    | .wait :: hs => rw [step_wait_busy hh hb] at h; exact .inr ⟨rfl, hs, h⟩
    | [] => rw [step_quiet hh] at h; exact .inr ⟨rfl, s.host, h⟩

/-- A pull of a running token with bytes to produce, a kind and a distance in range has an answer (40 R123). -/
theorem pull_ne_fault {s : State} {f : Fault}
    (h : s.dstat = .run → 0 < s.rem ∧ s.tk ≠ .none ∧ (s.tk = .rpp → 1 ≤ s.off ∧ s.off ≤ s.n)) :
    answerPull (emit s) ≠ .fault f := by
  intro hf
  obtain ⟨-, hrun, hbroken⟩ := pull_fault hf
  obtain ⟨hrem, htk, hoff⟩ := h hrun
  obtain hz | hz | ⟨hk, hz⟩ := hbroken
  · omega
  · exact htk hz
  · exact hz (hoff hk)

/-- A fetched token has a byte to produce, and a distance that was checked (30_encoding R91; 40 R127). -/
theorem fetched_pull_ne_fault {s : State} {c : Byte} {ops : List Byte} {f : Fault} (hcodec : s.cfg.codec.Contract)
    (hops : ops.length = s.cfg.codec.operandCount (s.cfg.codec.classOf c)) :
    answerPull (emit (Instr.fetchPart (s.cfg.codec.assemble c ops) s)) ≠ .fault f := by
  apply pull_ne_fault
  obtain h | ⟨e, h⟩ | ⟨n, hcount, h⟩ := fetchPart_cases (s := s) rfl hops
  · rw [h]
    nofun
  · rw [h]
    nofun
  · obtain ⟨hn, -⟩ := hcodec.counts c ops n hops hcount
    obtain ⟨v, h⟩ | ⟨o, h1, -, h3, h⟩ | ⟨-, h⟩ := h
    · rw [h]
      exact fun _ => ⟨hn, nofun, nofun⟩
    · rw [h]
      exact fun _ => ⟨hn, nofun, fun _ => ⟨h1, h3⟩⟩
    · rw [h]
      exact fun _ => ⟨hn, nofun, nofun⟩

/-- Under the decoder's invariant a busy phase always has its step. -/
theorem engineStep_ne_fault {s : State} {f : Fault} (hi : DecoderInv s) (hb : s.busy = true) :
    engineStep s ≠ .fault f := by
  obtain hw | hw := State.busy_iff.1 hb
  · cases hf : s.fetchDue with
    | false =>
      rw [engineStep_continue hw hf]
      refine pull_ne_fault fun hrun => ?_
      have hrem : 0 < s.rem := by
        by_contra hz
        simp [State.fetchDue, hrun] at hf
        omega
      exact ⟨hrem, hi.kind hrem, fun hk => ⟨hi.offset.1, hi.backReference hk hrem⟩⟩
    | true =>
      cases hd : decodeWith s.cfg.codec (s.src.drop s.sc) with
      | token i rest =>
        rw [engineStep_token hw hf hd, exec_token_run (decode_isToken hd) (State.fetchDue_iff.1 hf).1]
        obtain ⟨c, ops, -, hops, rfl⟩ := decodeWith_token hd
        exact fetched_pull_ne_fault hi.lawful.codec hops
      | truncated m => rw [engineStep_truncated hw hf hd]; nofun
  · rw [engineStep_gate hw]
    exact writeStep_ne_fault

/-- Settles O49: the only fault left is that of a phase with no step. -/
theorem noBrokenPrecondition : Obligations.NoBrokenPrecondition := by
  unfold Obligations.NoBrokenPrecondition
  intro s hi
  have hfault {f : Fault} (h : step s = .fault f) : f = .noEnabledStep := by
    obtain hidle | ⟨hb, hs, he⟩ := step_fault h
    · exact hidle
    · exact absurd he (engineStep_ne_fault (hi.decoder.withHost hs) hb)
  exact ⟨fun h => (by cases hfault h), fun h => (by cases hfault h)⟩

/-! ### The measure of a command -/

/-- What the stream still has to give: at most `MAX_COUNT` bytes of output for each byte not yet read. -/
def State.streamWork (s : State) : Nat := s.cfg.codec.maxCount * (s.srcLen - s.sc) + s.rem

theorem State.work_pull {s : State} (hw : s.ws = .pull) : s.work = 2 * s.streamWork + 1 := by
  rw [State.work, hw]
  rfl

theorem State.work_gate {s : State} (hw : s.ws = .gate) : s.work = 2 * s.streamWork + 2 := by
  rw [State.work, hw]
  rfl

theorem State.work_done {s : State} (hw : s.ws = .done) : s.work = 2 * s.streamWork := by
  rw [State.work, hw]
  rfl

/-- A stream byte read leaves room in the measure for a token's count (40 R136). -/
theorem streamWork_of_read {m len sc sc' r : Nat} (hr : r ≤ m) (hsc : sc + 1 ≤ sc') (hlen : sc' ≤ len) :
    m * (len - sc') + r ≤ m * (len - sc) :=
  calc m * (len - sc') + r ≤ m * (len - sc') + m := Nat.add_le_add_left hr _
    _ = m * (len - sc' + 1) := rfl
    _ ≤ m * (len - sc) := Nat.mul_le_mul_left m (by omega)

/-- A byte pulled is counted off what is left. -/
theorem PulledByte.streamWork_lt {s t : State} (hk : s.cfg.codec.Contract) (hplace : SamePlace s t)
    (h : PulledByte s t) : t.streamWork < s.streamWork := by
  obtain ⟨hcfg, hsrc, -⟩ := hplace.sameParameters
  have hcursor := h.cursor
  simp only [State.streamWork, State.srcLen, hcfg, hsrc]
  obtain ⟨hrem, -⟩ | ⟨hrem, hroom, hread, -⟩ := h.count
  · have hmono : s.cfg.codec.maxCount * (s.src.length - t.sc) ≤ s.cfg.codec.maxCount * (s.src.length - s.sc) :=
      Nat.mul_le_mul_left _ (by omega)
    omega
  · have hpaid := streamWork_of_read (r := t.rem + 1) (hroom hk) hread (show t.sc ≤ s.src.length by omega)
    omega

/-- The end of a command adds nothing to what is left. -/
theorem PulledEnd.streamWork_le {s t : State} (hk : s.cfg.codec.Contract) (hplace : SamePlace s t)
    (h : PulledEnd s t) : t.streamWork ≤ s.streamWork := by
  obtain ⟨hcfg, hsrc, -⟩ := hplace.sameParameters
  have hcursor := h.cursor
  simp only [State.streamWork, State.srcLen, hcfg, hsrc]
  obtain ⟨hrem, -⟩ | ⟨hrem, hroom, -, -, hread⟩ := h.count
  · have hmono : s.cfg.codec.maxCount * (s.src.length - t.sc) ≤ s.cfg.codec.maxCount * (s.src.length - s.sc) :=
      Nat.mul_le_mul_left _ (by omega)
    omega
  · have hpaid := streamWork_of_read (hroom hk) hread (show t.sc ≤ s.src.length by omega)
    omega

/-- Settles O50: a byte pulled weighs more than its write to come, a write step ends that, and a turn of the spin leaves
the measure. -/
theorem workShrinks : Obligations.WorkShrinks := by
  unfold Obligations.WorkShrinks
  intro s t hk hturn h
  rw [step_engineTurn hturn] at h
  obtain ⟨hw, hplace, hbyte | hend⟩ | ⟨hw, -, -, rfl⟩ | ⟨hw, tb, -, -, -, rfl⟩ | ⟨hw, tb, hdk, hforbid, rfl⟩ :=
    engineStep_effect h
  · have hless := hbyte.streamWork_lt hk hplace
    rw [State.work_pull hw, State.work_gate hbyte.phase.1]
    omega
  · have hless := hend.streamWork_le hk hplace
    rw [State.work_pull hw, State.work_done hend.phase]
    omega
  · rw [State.work_gate hw]
    exact .inl (Nat.lt_succ_self _)
  · rw [State.work_gate hw]
    exact .inl (Nat.lt_succ_self _)
  · exact .inr ⟨hw, ⟨tb, hdk, hforbid⟩, rfl⟩

/-! ### A buffer command with room -/

/-- A buffer command runs alone, clear of the stream, and every byte its stream can give has an address. -/
structure RunsWithRoom (s : State) : Prop where
  inv : Inv s
  busy : s.busy = true
  host : s.host = []
  buffer : s.dk = .buf
  clear : s.srcBase = none
  room : s.dst0 + s.cfg.codec.maxCount * s.srcLen ≤ 2 ^ s.cfg.addrBits

/-- The next write is within the bytes the stream can give, so it is not refused. -/
theorem RunsWithRoom.not_refused {s : State} (h : RunsWithRoom s) (hw : s.ws = .gate) : s.bufferRefusal? = none := by
  obtain ⟨hn, -⟩ := h.inv.writer.pending hw
  have hbudget := h.inv.decoder.budget
  have hlen : s.cfg.codec.maxCount * s.sc ≤ s.cfg.codec.maxCount * s.srcLen :=
    Nat.mul_le_mul_left _ h.inv.decoder.cursor
  have hroom := h.room
  refine bufferRefusal_none.2 ⟨?_, by simp [State.inSource, h.clear]⟩
  simp only [State.bufferAddr]
  omega

theorem RunsWithRoom.step_exists {s : State} (h : RunsWithRoom s) : ∃ t, step s = .next t := by
  have hturn : s.engineTurn := ⟨h.busy, .inl h.host⟩
  obtain hw | hw := State.busy_iff.1 h.busy
  · cases hs : step s with
    | next t => exact ⟨t, rfl⟩
    | fault f =>
      rw [step_engineTurn hturn] at hs
      exact absurd hs (engineStep_ne_fault h.inv.decoder h.busy)
    | refused r =>
      rw [step_pull hturn hw, decodeNext] at hs
      split at hs <;> exact absurd hs pull_not_refused
  · exact ⟨_, step_bufferWrite hturn hw h.buffer (h.not_refused hw)⟩

/-- After a step of the engine its command runs on, or has ended; the host has made no move. -/
theorem engineStep_running {s t : State} (h : engineStep s = .next t) :
    t.host = s.host ∧ (t.busy = true ∨ t.ws = .done) := by
  obtain ⟨-, ⟨⟨-, hhost, -⟩, -⟩, hbyte | hend⟩ | ⟨-, -, -, rfl⟩ | ⟨-, tb, -, -, -, rfl⟩ | ⟨hw, tb, -, -, rfl⟩ :=
    engineStep_effect h
  · exact ⟨hhost, .inl (State.busy_iff.2 (.inr hbyte.phase.1))⟩
  · exact ⟨hhost, .inr hend.phase⟩
  · exact ⟨rfl, .inl rfl⟩
  · exact ⟨rfl, .inl rfl⟩
  · exact ⟨rfl, .inl (State.busy_iff.2 (.inr hw))⟩

/-- Each step of such a command brings it nearer its end and leaves it such a command, or ends it. -/
theorem RunsWithRoom.next {s : State} (h : RunsWithRoom s) :
    ∃ t, step s = .next t ∧ t.work < s.work ∧ Inv t ∧ (t.ws = .done ∨ RunsWithRoom t) := by
  have hturn : s.engineTurn := ⟨h.busy, .inl h.host⟩
  obtain ⟨t, hs⟩ := h.step_exists
  have hinv := stepKeepsInv s t h.inv hs
  have hwork := workShrinks s t h.inv.decoder.lawful.codec hturn hs
  rw [step_engineTurn hturn] at hs
  obtain ⟨hcfg, hsrc, hbase, -, hdst, -, hdk⟩ := engineStep_sameParameters hs
  obtain ⟨hhost, hrun⟩ := engineStep_running hs
  refine ⟨t, by rwa [step_engineTurn hturn], ?_, hinv, hrun.symm.imp_right fun hb => ?_⟩
  · obtain hless | ⟨-, ⟨tb, hk, -⟩, -⟩ := hwork
    · exact hless
    · cases h.buffer.symm.trans hk
  · exact {
      inv := hinv
      busy := hb
      host := hhost.trans h.host
      buffer := hdk.trans h.buffer
      clear := hbase.trans h.clear
      room := by rw [State.srcLen, hdst, hcfg, hsrc]; exact h.room }

/-- A buffer command with room ends within the work it has left: by induction on that work. -/
theorem RunsWithRoom.ends {s : State} (h : RunsWithRoom s) :
    ∃ k t, k ≤ s.work ∧ Reaches s k t ∧ Inv t ∧ t.ws = .done := by
  induction hwork : s.work using Nat.strong_induction_on generalizing s with
  | _ w ih =>
    obtain ⟨t, hs, hless, hinv, hdone | hrun⟩ := h.next
    · exact ⟨1, t, by omega, (reaches_succ hs).2 (reaches_zero.2 rfl), hinv, hdone⟩
    · obtain ⟨k, u, hk, hreach, hend⟩ := ih t.work (by omega) hrun rfl
      exact ⟨k + 1, u, by omega, (reaches_succ hs).2 hreach, hend⟩

/-- Settles O51: at its end every byte the command produced is written. -/
theorem bufferCommandEnds : Obligations.BufferCommandEnds := by
  unfold Obligations.BufferCommandEnds
  intro s hi hb hh hk hclear hroom
  obtain ⟨k, t, hwork, hreach, hinv, hdone⟩ := RunsWithRoom.ends ⟨hi, hb, hh, hk, hclear, hroom⟩
  exact ⟨k, t, hwork, hreach, hdone, hinv.writer.written (by simp [hdone])⟩

end Sys2Proof.Machine
end

section
/-!
The bytes of a RepeatPattern: its output runs on with period `off` (40 R132).
-/
namespace Sys2Proof.Machine

/-- One byte copied from `off` back shifts the pattern by one: what lies `off` back from the new end, and on from there
cyclically, is what lay there before, one further on. -/
theorem pattern_shift {hist : List Byte} {off : Nat} {b : Byte} (h1 : 1 ≤ off) (h2 : off ≤ hist.length)
    (hb : hist[hist.length - off]? = some b) (j : Nat) :
    (hist ++ [b])[hist.length + 1 - off + j % off]? = hist[hist.length - off + (j + 1) % off]? := by
  have hlt : j % off < off := Nat.mod_lt _ h1
  have hmod := Nat.mod_add_mod j off 1
  obtain hwrap | hin := Nat.eq_or_lt_of_le (show j % off + 1 ≤ off from hlt)
  · rw [hwrap, Nat.mod_self] at hmod
    have hlast : hist.length + 1 - off + j % off = hist.length := by omega
    rw [← hmod, hlast, Nat.add_zero, hb, List.getElem?_concat_length]
  · rw [Nat.mod_eq_of_lt hin] at hmod
    have hidx : hist.length + 1 - off + j % off = hist.length - off + (j + 1) % off := by omega
    rw [hidx, List.getElem?_append_left (by omega)]

/-- Settles O41, by induction on the number of bytes: the first is copied, and the rest are those of the state after it,
whose pattern is shifted by one. -/
theorem overlappingCopy : Obligations.OverlappingCopy := by
  unfold Obligations.OverlappingCopy
  intro s k
  induction k generalizing s with
  | zero => exact fun _ _ _ _ _ => ⟨rfl, List.take_length, nofun⟩
  | succ k ih =>
    intro hrun htk h1 h2 hk
    obtain ⟨b, -, hb⟩ := State.histBack_isSome h1 h2
    have hnext : emitMany (k + 1) s = emitMany k (s.appendByte b) := by
      rw [emitMany, emit_rpp hrun (by omega) htk h1 h2 hb]
    have hgrown : (s.appendByte b).n = s.n + 1 := by simp
    have hmore : k ≤ (s.appendByte b).rem := by simp; omega
    obtain ⟨hlen, htake, hcopy⟩ := ih (s.appendByte b) hrun htk h1 (by rw [hgrown]; exact Nat.le_succ_of_le h2) hmore
    rw [hgrown] at hlen htake hcopy
    rw [State.appendByte_hist] at htake hcopy
    rw [hnext]
    have hkeep := congrArg (List.take s.n) htake
    rw [List.take_take, Nat.min_eq_left (Nat.le_succ _), List.take_left] at hkeep
    refine ⟨by omega, hkeep, fun i hi => ?_⟩
    cases i with
    | zero =>
      have hfirst := congrArg (fun l => l[s.n]?) htake
      rw [List.getElem?_take_of_lt (Nat.lt_succ_self _), List.getElem?_concat_length] at hfirst
      rw [Nat.zero_mod, Nat.add_zero, Nat.add_zero, hfirst, hb]
    | succ j =>
      have hlater := hcopy j (by omega)
      rw [Nat.add_assoc, Nat.add_comm 1 j] at hlater
      exact hlater.trans (pattern_shift h1 h2 hb j)

end Sys2Proof.Machine
end

section
/-!
Two runs on one stream: a pull depends on the decoder's elements alone, and a write does not touch them, so the output
is the stream's (40 R134).
-/
namespace Sys2Proof.Machine

/-! ### What keeps two states in agreement -/

theorem SameDecoding.consume {s u : State} (h : SameDecoding s u) (k : Nat) :
    SameDecoding (s.consume k) (u.consume k) :=
  ⟨h.codec, h.src, congrArg (· + k) h.sc, h.tk, h.rem, h.val, h.off, h.hist, h.dstat⟩

theorem SameDecoding.raise {s u : State} (h : SameDecoding s u) (e : StreamError) :
    SameDecoding (s.raise e) (u.raise e) :=
  ⟨h.codec, h.src, h.sc, h.tk, h.rem, h.val, h.off, h.hist, rfl⟩

/-- A write changes nothing that bears on what the decoder answers. -/
theorem SameDecoding.of_sameDecoder {s t u : State} (hst : SameDecoder s t) (h : SameDecoding s u) :
    SameDecoding t u := by
  obtain ⟨hcodec, hsrc, hsc, htk, hrem, hval, hoff, hhist, hdstat⟩ := hst
  obtain ⟨codec, src, sc, tk, rem, val, off, hist, dstat⟩ := h
  rw [htk, hrem, hval] at val
  rw [htk, hrem, hoff] at off
  exact ⟨hcodec ▸ codec, hsrc ▸ src, hsc ▸ sc, htk ▸ tk, hrem ▸ rem, val, off, hhist ▸ hist, hdstat ▸ dstat⟩

theorem SameDecoding.symm {s u : State} (h : SameDecoding s u) : SameDecoding u s where
  codec := h.codec.symm
  src := h.src.symm
  sc := h.sc.symm
  tk := h.tk.symm
  rem := h.rem.symm
  val hk hr := (h.val (h.tk.trans hk) (h.rem ▸ hr)).symm
  off hk hr := (h.off (h.tk.trans hk) (h.rem ▸ hr)).symm
  hist := h.hist.symm
  dstat := h.dstat.symm

/-! ### The pull -/

/-- What two agreeing states agree in after a pull each. -/
structure SamePull (t v : State) : Prop where
  decoding : SameDecoding t v
  phase : t.ws = v.ws
  byte : t.ws = .gate → t.pend = v.pend
  outcome : t.ws = .done → t.status = v.status

theorem SameDecoding.produced {s u : State} (h : SameDecoding s u) (b : Byte) :
    SamePull { s.appendByte b with pend := b, ws := .gate } { u.appendByte b with pend := b, ws := .gate } where
  decoding := ⟨h.codec, h.src, h.sc, h.tk, congrArg (· - 1) h.rem, fun hk hr => h.val hk (Nat.lt_of_lt_pred hr),
    fun hk hr => h.off hk (Nat.lt_of_lt_pred hr), congrArg (· ++ [b]) h.hist, h.dstat⟩
  phase := rfl
  byte _ := rfl
  outcome := nofun

theorem SameDecoding.ended {s u : State} (h : SameDecoding s u) (st : Status) :
    SamePull (s.endCommand st) (u.endCommand st) where
  decoding := ⟨h.codec, h.src, h.sc, h.tk, h.rem, h.val, h.off, h.hist, h.dstat⟩
  phase := rfl
  byte := nofun
  outcome _ := rfl

/-- A pull without a fetch, by what it does in the first state: the second has the same to do. -/
theorem SameDecoding.pull {s u t v : State} (h : SameDecoding s u) (hs : answerPull (emit s) = .next t)
    (hu : answerPull (emit u) = .next v) : SamePull t v := by
  have hrem := h.rem
  have hdstat := h.dstat
  have htk := h.tk
  obtain ⟨hrun, hr, hk, he⟩ | ⟨hrun, hr, hk, h1, h2, b, hb, he⟩ | ⟨hrun, hr, hk, b, hb, he⟩ | ⟨hrun, hr, hk, hb, he⟩ |
    ⟨-, -, f, -, he⟩ | ⟨hend, he⟩ | ⟨e, hfail, he⟩ := emit_cases s
  · rw [emit_rpb (hdstat ▸ hrun) (hrem ▸ hr) (htk ▸ hk), ← h.val hk hr] at hu
    rw [he] at hs
    cases hs
    cases hu
    exact h.produced _
  · rw [h.off hk hr] at h1 h2 hb
    simp only [State.n, h.hist] at h2 hb
    rw [emit_rpp (hdstat ▸ hrun) (hrem ▸ hr) (htk ▸ hk) h1 h2 hb] at hu
    rw [he] at hs
    cases hs
    cases hu
    exact h.produced b
  · rw [h.src, h.sc] at hb
    rw [emit_lit (hdstat ▸ hrun) (hrem ▸ hr) (htk ▸ hk) hb] at hu
    rw [he] at hs
    cases hs
    cases hu
    exact (h.consume 1).produced b
  · rw [h.src, h.sc] at hb
    rw [emit_lit_end (hdstat ▸ hrun) (hrem ▸ hr) (htk ▸ hk) hb] at hu
    rw [he] at hs
    cases hs
    cases hu
    exact (h.raise .truncated).ended .truncated
  · rw [he] at hs
    cases hs
  · rw [emit_ended (hdstat ▸ hend)] at hu
    rw [he] at hs
    cases hs
    cases hu
    exact h.ended .ok
  · rw [emit_failed (hdstat ▸ hfail)] at hu
    rw [he] at hs
    cases hs
    cases hu
    exact h.ended _

theorem SameDecoding.fetchRpp {s u : State} (h : SameDecoding s u) (o n : Nat) :
    SameDecoding (fetchRpp o n s) (fetchRpp o n u) := by
  have husable : u.distanceUsable o = s.distanceUsable o := by
    simp only [State.distanceUsable, State.n, h.codec, h.hist]
  have hconsumed := h.consume (1 + s.cfg.codec.rppOperands)
  unfold Machine.fetchRpp
  rw [husable, ← h.codec]
  split
  · exact ⟨h.codec, h.src, hconsumed.sc, rfl, rfl, nofun, fun _ _ => rfl, h.hist, h.dstat⟩
  · exact hconsumed.raise .malformed

theorem SameDecoding.fetchPart {s u : State} (h : SameDecoding s u) (i : Instr) :
    SameDecoding (Instr.fetchPart i s) (Instr.fetchPart i u) := by
  have read (k : Codec → Nat) : s.sc + (1 + k s.cfg.codec) = u.sc + (1 + k u.cfg.codec) := by rw [h.sc, h.codec]
  cases i with
  | endToken => exact ⟨h.codec, h.src, congrArg (· + 1) h.sc, h.tk, h.rem, h.val, h.off, h.hist, rfl⟩
  | rpb v n => exact ⟨h.codec, h.src, read Codec.rpbOperands, rfl, rfl, fun _ _ => rfl, nofun, h.hist, h.dstat⟩
  | unk c => exact (h.consume 1).raise .unknown
  | rpp o n => exact h.fetchRpp o n
  | lit n => exact ⟨h.codec, h.src, read Codec.litOperands, rfl, rfl, nofun, nofun, h.hist, h.dstat⟩
  | dbuf | dbkg | dwin | dspr => exact h

theorem SameDecoding.fetchToken {s u : State} (h : SameDecoding s u) :
    SameDecoding (fetchToken s) (fetchToken u) := by
  have hstream : s.stream = u.stream := by rw [State.stream, State.stream, h.src, h.sc]
  unfold Machine.fetchToken
  rw [← hstream, ← h.codec]
  cases decodeWith s.cfg.codec s.stream with
  | token i rest => exact h.fetchPart i
  | truncated m => exact (h.consume _).raise .truncated

/-- Two pull steps from agreeing states, whatever their destinations, oracles and hosts. -/
theorem SameDecoding.step_pull {s u t v : State} (h : SameDecoding s u) (hs : s.engineTurn) (hu : u.engineTurn)
    (hws : s.ws = .pull) (hwu : u.ws = .pull) (hst : step s = .next t) (huv : step u = .next v) : SamePull t v := by
  have hdue : s.fetchDue = u.fetchDue := by rw [State.fetchDue, State.fetchDue, h.dstat, h.rem]
  rw [Machine.step_pull hs hws, decodeNext, hdue] at hst
  rw [Machine.step_pull hu hwu, decodeNext] at huv
  cases hf : u.fetchDue with
  | true =>
    rw [hf, if_pos rfl] at hst huv
    exact h.fetchToken.pull hst huv
  | false =>
    rw [hf, if_neg nofun] at hst huv
    exact h.pull hst huv

/-- Settles O39: two pull steps from agreeing states. -/
theorem pullIndependent : Obligations.PullIndependent := by
  unfold Obligations.PullIndependent
  intro s u t v h hs hu hws hwu hst huv
  obtain ⟨hdec, hphase, hbyte, hstatus⟩ := h.step_pull hs hu hws hwu hst huv
  exact ⟨hdec, hphase, hbyte, hstatus⟩

/-! ### Whole runs -/

/-- A run from a write to the end of its command goes through the next pull, with the decoder as it was: by induction on
the run, since a write step ends at a pull or waits. -/
theorem reaches_pull_of_gate {s t : State} {j : Nat} (hw : s.ws = .gate) (hh : s.host = []) (h : Reaches s j t)
    (hd : t.ws = .done) :
    ∃ k u, k < j ∧ SameDecoder s u ∧ u.ws = .pull ∧ u.host = [] ∧ Reaches u k t := by
  induction j generalizing s with
  | zero =>
    rw [← reaches_zero.1 h, hw] at hd
    cases hd
  | succ j ih =>
    obtain ⟨u, hsu, hut⟩ := reaches_succ_iff.1 h
    rw [step_quiet hh] at hsu
    have hsame := engineStep_gate_sameDecoder hw hsu
    obtain ⟨hhost, hb | hdone⟩ := engineStep_running hsu
    · obtain hpull | hgate := State.busy_iff.1 hb
      · exact ⟨j, u, Nat.lt_succ_self j, hsame, hpull, hhost.trans hh, hut⟩
      · obtain ⟨k, x, hk, hx, hxw, hxh, hxt⟩ := ih hgate (hhost.trans hh) hut
        refine ⟨k, x, by omega, ?_, hxw, hxh, hxt⟩
        exact ⟨hsame.codec.trans hx.codec, hsame.src.trans hx.src, hsame.sc.trans hx.sc, hsame.tk.trans hx.tk,
          hsame.rem.trans hx.rem, hsame.val.trans hx.val, hsame.off.trans hx.off, hsame.hist.trans hx.hist,
          hsame.dstat.trans hx.dstat⟩
    · exact absurd hdone (engineStep_gate_ne_done hw hsu)

/-- A block whose command has ended, with no move of the host, takes no step. -/
theorem reaches_of_done {s t : State} {j : Nat} (hw : s.ws = .done) (hh : s.host = []) (h : Reaches s j t) : s = t := by
  cases j with
  | zero => exact reaches_zero.1 h
  | succ j =>
    obtain ⟨u, hsu, -⟩ := reaches_succ_iff.1 h
    rw [step_done hw hh] at hsu
    cases hsu

/-- The first step of a run from a pull to the end of its command. -/
theorem reaches_from_pull {s t : State} {j : Nat} (hw : s.ws = .pull) (hh : s.host = []) (h : Reaches s j t)
    (hd : t.ws = .done) :
    ∃ k u, k < j ∧ step s = .next u ∧ Reaches u k t ∧ u.host = [] ∧ (u.ws = .gate ∨ u.ws = .done) := by
  cases j with
  | zero =>
    rw [← reaches_zero.1 h, hw] at hd
    cases hd
  | succ j =>
    obtain ⟨u, hsu, hut⟩ := reaches_succ_iff.1 h
    refine ⟨j, u, Nat.lt_succ_self j, hsu, hut, ?_⟩
    rw [step_quiet hh] at hsu
    refine ⟨(engineStep_running hsu).1.trans hh, ?_⟩
    obtain ⟨-, hbyte | hend⟩ := engineStep_pull hw hsu
    · exact .inl hbyte.phase.1
    · exact .inr hend.phase

/-- Two commands that agree at a pull agree at their ends: by induction on the first run, from pull to pull. -/
theorem SameDecoding.runs {s u t v : State} {j k : Nat} (h : SameDecoding s u) (hws : s.ws = .pull)
    (hwu : u.ws = .pull) (hhs : s.host = []) (hhu : u.host = []) (hst : Reaches s j t) (huv : Reaches u k v)
    (hdt : t.ws = .done) (hdv : v.ws = .done) : SamePull t v := by
  induction j using Nat.strong_induction_on generalizing s u k with
  | _ j ih =>
    obtain ⟨j', s', hj, hs, hst', hhs', hphase⟩ := reaches_from_pull hws hhs hst hdt
    obtain ⟨k', u', -, hu, huv', hhu', -⟩ := reaches_from_pull hwu hhu huv hdv
    have hsame := h.step_pull ⟨State.busy_iff.2 (.inl hws), .inl hhs⟩ ⟨State.busy_iff.2 (.inl hwu), .inl hhu⟩ hws hwu
      hs hu
    obtain hgate | hdone := hphase
    · obtain ⟨j'', s'', hj'', hs'', hws'', hhs'', hst''⟩ := reaches_pull_of_gate hgate hhs' hst' hdt
      obtain ⟨k'', u'', -, hu'', hwu'', hhu'', huv''⟩ :=
        reaches_pull_of_gate (hsame.phase ▸ hgate) hhu' huv' hdv
      have hagree := (hsame.decoding.of_sameDecoder hs'').symm.of_sameDecoder hu''
      exact ih j'' (by omega) hagree.symm hws'' hwu'' hhs'' hhu'' hst'' huv''
    · rw [← reaches_of_done hdone hhs' hst', ← reaches_of_done (hsame.phase ▸ hdone) hhu' huv']
      exact hsame

/-- An ended buffer command holds its output in memory, outside the tile tables (10_state R38, 41 R179). -/
theorem Inv.buffer_read {t : State} (hi : Inv t) (hd : t.ws = .done) (hk : t.dk = .buf) {k : Nat} (hlt : k < t.n)
    (hout : t.inTables (t.dst0 + k) = false) : Memory.read t.mem (t.dst0 + k) = t.hist[k]? := by
  have hwn := hi.writer.written (by simp [hd])
  have haddr : t.outAddr k = t.dst0 + k := by rw [State.outAddr, hk]
  rw [← haddr] at hout ⊢
  exact hi.memory.holds k (by omega) fun _ => hout

/-- Settles O40: two Starts agree, two runs from there do, and what they wrote is their output. -/
theorem sameStreamSameOutput : Obligations.SameStreamSameOutput := by
  unfold Obligations.SameStreamSameOutput
  refine ⟨fun i j s u t v hi hj hcodec hst huv hsrc => ?_, fun s u t v j k h hws hwu hhs hhu hst huv hdt hdv => ?_⟩
  · obtain ⟨c, dk, a, rfl⟩ := exec_command_next hi hst
    obtain ⟨c', dk', a', rfl⟩ := exec_command_next hj huv
    exact ⟨hcodec, hsrc, rfl, rfl, rfl, nofun, nofun, rfl, rfl⟩
  · obtain ⟨hdec, -, -, hstatus⟩ := h.runs hws hwu hhs hhu hst huv hdt hdv
    refine ⟨hdec.hist, hdec.sc, hdec.dstat, hstatus hdt, fun hit hiv hkt hkv i hi hot hov => ?_⟩
    have hlt : i < v.n := by
      rw [State.n, ← hdec.hist]
      exact hi
    rw [hit.buffer_read hdt hkt hi hot, hiv.buffer_read hdv hkv hlt hov, hdec.hist]

end Sys2Proof.Machine
end

section
/-!
What the engine never reads: the host's later moves and what memory holds (10_state section 5; 60 R220).
-/
namespace Sys2Proof.Machine

/-- The state with other moves of the host to come, and other memory. -/
def State.withOutside (f : List HostMove → List HostMove) (g : Memory → Memory) (s : State) : State :=
  { s with host := f s.host, mem := g s.mem }

/-- A pull reads neither (40 R120). -/
theorem withOutside_leavesDecoder (f : List HostMove → List HostMove) (g : Memory → Memory) :
    LeavesDecoder (State.withOutside f g) where
  codec _ := rfl
  dstat _ := rfl
  rem _ := rfl
  tk _ := rfl
  val _ := rfl
  off _ := rfl
  hist _ := rfl
  src _ := rfl
  sc _ := rfl
  ws _ := rfl
  consume _ _ := rfl
  append _ _ := rfl
  raise _ _ := rfl
  fetch i s := by
    cases i with
    | rpp o n =>
      exact fetchRpp_commutes (f := State.withOutside f g) (fun _ => rfl) (fun _ => rfl) (fun _ _ => rfl)
        (fun _ _ => rfl) (fun _ _ _ => rfl) o n s
    | endToken | rpb | unk | lit | dbuf | dbkg | dwin | dspr => rfl
  hold _ _ := rfl
  finish _ _ := rfl

theorem mapNext_id (r : Result State) : mapNext id r = r := by
  cases r <;> rfl

theorem mapNext_mapNext (f g : State → State) (r : Result State) :
    mapNext f (mapNext g r) = mapNext (fun t => f (g t)) r := by
  cases r <;> rfl

/-- The state after the write of the buffer, and after that of a tile table in an allowed slot (41 R169, R170). -/
def State.bufferWritten (s : State) : State :=
  { s.memWriteUngated s.bufferAddr s.pend with wn := s.wn + 1, ws := .pull }

def State.tileWritten (tb : TileTable) (s : State) : State :=
  { (s.afterQuery.memWrite (s.tileAddr tb) s.pend (some s.nextAnswer)).advanceTile tb with ws := .pull }

/-- Two states at their write with one destination, refused alike and answered alike, have write steps that are alike up
to a view of each, where the states they lead to are. -/
theorem writeStep_congr {p q : State → State} {s u : State} (hdk : u.dk = s.dk)
    (hbuf : u.bufferRefusal? = s.bufferRefusal?) (htile : ∀ tb, u.tileRefusal? tb = s.tileRefusal? tb)
    (hallow : ∀ tb, tableAllows (u.cfg.table tb) u.nextAnswer = tableAllows (s.cfg.table tb) s.nextAnswer)
    (hbufNext : p u.bufferWritten = q s.bufferWritten) (htileNext : ∀ tb, p (u.tileWritten tb) = q (s.tileWritten tb))
    (hwait : p u.afterQuery = q s.afterQuery) : mapNext p (writeStep u) = mapNext q (writeStep s) := by
  unfold writeStep
  rw [hdk]
  cases s.dk with
  | buf =>
    simp only [bufferWrite, hbuf]
    cases s.bufferRefusal? with
    | some r => rfl
    | none => exact congrArg Host.Outcome.next hbufNext
  | tiles tb =>
    simp only [gatedWrite, hallow, tileWrite, State.afterQuery_tileRefusal, htile]
    split
    · cases s.tileRefusal? tb with
      | some r => rfl
      | none => exact congrArg Host.Outcome.next (htileNext tb)
    · exact congrArg Host.Outcome.next hwait

/-! ### The host's later moves -/

/-- The state with the host's moves to come replaced. -/
def State.withHost (hs : List HostMove) (s : State) : State := { s with host := hs }

theorem writeStep_withHost (hs : List HostMove) (s : State) :
    writeStep (s.withHost hs) = mapNext (State.withHost hs) (writeStep s) := by
  have h : mapNext id (writeStep (s.withHost hs)) = mapNext (State.withHost hs) (writeStep s) :=
    writeStep_congr rfl rfl (fun _ => rfl) (fun _ => rfl) rfl (fun _ => rfl) rfl
  rwa [mapNext_id] at h

/-- The engine's step does not read the host's moves to come. -/
theorem engineStep_withHost (hs : List HostMove) (s : State) :
    engineStep (s.withHost hs) = mapNext (State.withHost hs) (engineStep s) := by
  cases hb : s.busy with
  | false => rw [engineStep_idle hb, engineStep_idle (s := s.withHost hs) hb]; rfl
  | true =>
    obtain hw | hw := State.busy_iff.1 hb
    · exact engineStep_pull_commutes (withOutside_leavesDecoder (fun _ => hs) id) hw
    · rw [engineStep_gate hw, engineStep_gate (s := s.withHost hs) hw, writeStep_withHost]

/-- Settles O54: a busy block takes the engine's step whatever the host waits for. -/
theorem hostLetsEngineStep : Obligations.HostLetsEngineStep := by
  unfold Obligations.HostLetsEngineStep
  have turn (s : State) (hs : List HostMove) :
      engineStep (s.withHost hs) = mapNext (State.withHost hs) (step (s.withHost [])) := by
    rw [step_quiet (s := s.withHost []) rfl]
    exact engineStep_withHost hs (s.withHost [])
  refine ⟨fun s h hh hb => ?_, fun s h hh hb => step_wait hh hb, fun s r h hh hb => ?_⟩
  · rw [step_wait_busy hh hb]
    exact turn s h
  · rw [step_start_busy hh hb]
    have hself : s.withHost (.start r :: h) = s := by rw [← hh]; rfl
    exact (congrArg engineStep hself.symm).trans (turn s _)

/-! ### What memory holds -/

/-- The state with other memory. -/
def State.withMemory (m : Memory) (s : State) : State := { s with mem := m }

theorem writeStep_withMemory (m : Memory) (s : State) :
    mapNext (State.withMemory []) (writeStep (s.withMemory m)) = mapNext (State.withMemory []) (writeStep s) :=
  writeStep_congr rfl rfl (fun _ => rfl) (fun _ => rfl) rfl (fun _ => rfl) rfl

/-- The engine's step does not read memory. -/
theorem engineStep_withMemory (m : Memory) (s : State) :
    mapNext (State.withMemory []) (engineStep (s.withMemory m)) = mapNext (State.withMemory []) (engineStep s) := by
  cases hb : s.busy with
  | false => rw [engineStep_idle hb, engineStep_idle (s := s.withMemory m) hb]
  | true =>
    obtain hw | hw := State.busy_iff.1 hb
    · have hpull : engineStep (s.withMemory m) = mapNext (State.withOutside id fun _ => m) (engineStep s) :=
        engineStep_pull_commutes (withOutside_leavesDecoder id fun _ => m) hw
      rw [hpull, mapNext_mapNext]
      rfl
    · rw [engineStep_gate hw, engineStep_gate (s := s.withMemory m) hw, writeStep_withMemory]

/-- Nor does a Start. -/
theorem start_withMemory (m : Memory) (c : BitVec 2) (dk : DestKind) (a : CmdArgs) (s : State) :
    mapNext (State.withMemory []) (start c dk a (s.withMemory m)) = mapNext (State.withMemory []) (start c dk a s) := by
  have hbusy : (s.withMemory m).busy = s.busy := rfl
  have hcfg : (s.withMemory m).cfg = s.cfg := rfl
  unfold start
  rw [hbusy, hcfg]
  split_ifs <;> rfl

/-- A step does not read memory, by the host's next move. -/
theorem step_withMemory (m : Memory) (s : State) :
    mapNext (State.withMemory []) (step (s.withMemory m)) = mapNext (State.withMemory []) (step s) := by
  match hh : s.host with
  | [] =>
    rw [step_quiet hh, step_quiet (s := s.withMemory m) hh]
    exact engineStep_withMemory m s
  | .reset :: hs =>
    rw [step_reset hh, step_reset (s := s.withMemory m) hh]
    rfl
  | .start r :: hs =>
    cases hb : s.busy with
    | false =>
      obtain ⟨-, hcmd⟩ := requestRoundTrip r
      obtain ⟨c, dk, a, hexec, -⟩ := exec_command hcmd
      rw [step_start hh hb, step_start (s := s.withMemory m) hh hb, hexec, hexec]
      exact start_withMemory m c dk a (s.withHost hs)
    | true =>
      rw [step_start_busy hh hb, step_start_busy (s := s.withMemory m) hh hb]
      exact engineStep_withMemory m s
  | .wait :: hs =>
    cases hb : s.busy with
    | false =>
      rw [step_wait hh hb, step_wait (s := s.withMemory m) hh hb]
      rfl
    | true =>
      rw [step_wait_busy hh hb, step_wait_busy (s := s.withMemory m) hh hb]
      exact engineStep_withMemory m (s.withHost hs)

/-- Settles O32: no step reads memory, and the only store is that of the destination's write. -/
theorem destinationNeverRead : Obligations.DestinationNeverRead := by
  unfold Obligations.DestinationNeverRead
  refine ⟨fun s m => step_withMemory m s, fun s t h => ?_⟩
  obtain ⟨-, hmem, -⟩ | ⟨hmem, -⟩ | ⟨hw, hk, v, hv, hmem, -⟩ | ⟨hw, tb, hk, hmem, -⟩ := step_stores h
  · exact .inl hmem
  · exact .inl hmem
  · exact .inr (.inl ⟨hw, hk, v, hv, hmem⟩)
  · exact .inr (.inr ⟨hw, tb, hk, hmem⟩)

end Sys2Proof.Machine
end
